-- ==== Sys2Proof/Word.lean ====
section
/-! DEFINITION. The widths the hardware fixes (00_scope.md R9). -/

namespace Sys2Proof

/-- A register value, an address, an instruction word: 32 bits (R9). -/
abbrev Word := BitVec 32

/-- A memory byte (R9). -/
abbrev Byte := BitVec 8

/-- A register index: "a 5-bit value", 0 to 31 (10_state.md R34). -/
abbrev Reg := BitVec 5

end Sys2Proof
end

