-- ==== Sys2Proof/Config.lean ====
section
/-! DEFINITION. The parameters of 00_scope.md R8 that are numbers. INIT_MEM, the fifth, is the argument
`image` of `State.resetWith`. -/

namespace Sys2Proof

/-- The implementation parameters (R8). No source gives a value for any of them, so they stand in `State`
(field `cfg`) and a statement about every state is a statement about every value of them
(DESIGN CHOICE, log 1). -/
structure Config where
  /-- MEM_SIZE: the capacity of the memory in bytes. -/
  memSize : Nat
  /-- RESET_VECTOR: the value of pc after reset. -/
  resetVector : Word
  /-- ACCESS_LATENCY: what one timed transaction adds to sim_time. -/
  accessLatency : Nat
  /-- CYCLE_TIME: what one completed instruction cycle adds to sim_time. -/
  cycleTime : Nat
  deriving DecidableEq, Repr

/-- The range R8 gives MEM_SIZE: 0 < MEM_SIZE <= 2^32. The other parameters are unconstrained. -/
abbrev Config.valid (c : Config) : Prop := 0 < c.memSize ∧ c.memSize ≤ 2 ^ 32

/-- The parameters of `State.reset`: the whole 32-bit address space, reset vector 0, one unit of time for
each access and each cycle. DESIGN CHOICE, log 1 (unsafe: the spec gives none of the four). -/
def Config.standard : Config :=
  { memSize := 2 ^ 32, resetVector := 0, accessLatency := 1, cycleTime := 1 }

end Sys2Proof
end

