-- ==== Sys2Proof/Syntax.lean ====
section
/-! DEFINITION. The 37 instructions (00_scope.md R2), one constructor for each row of spec/opcode_table.json. -/

namespace Sys2Proof

/-- An instruction with its operands as the word holds them: register numbers, and the immediate field of
its format (30_encoding.md R102, R103) with its bits put in value order. `offset` of a branch is the 13-bit and
of JAL the 21-bit signed byte offset, bit 0 included (R108, R109); `imm` of LUI and AUIPC is inst[31:12] (R107);
`shamt` is inst[24:20] (R112). Bits the decoder ignores (R120) are not kept (log 19). -/
inductive Instr
  /-- LUI (R140). -/
  | lui (rd : Reg) (imm : BitVec 20)
  /-- AUIPC (R141). -/
  | auipc (rd : Reg) (imm : BitVec 20)
  /-- JAL (R145). -/
  | jal (rd : Reg) (offset : BitVec 21)
  /-- JALR (R146). -/
  | jalr (rd rs1 : Reg) (imm : BitVec 12)
  /-- BEQ (R151). -/
  | beq (rs1 rs2 : Reg) (offset : BitVec 13)
  /-- BNE (R152). -/
  | bne (rs1 rs2 : Reg) (offset : BitVec 13)
  /-- BLT (R153). -/
  | blt (rs1 rs2 : Reg) (offset : BitVec 13)
  /-- BGE (R154). -/
  | bge (rs1 rs2 : Reg) (offset : BitVec 13)
  /-- BLTU (R155). -/
  | bltu (rs1 rs2 : Reg) (offset : BitVec 13)
  /-- BGEU (R156). -/
  | bgeu (rs1 rs2 : Reg) (offset : BitVec 13)
  /-- LB (R161). -/
  | lb (rd rs1 : Reg) (imm : BitVec 12)
  /-- LH (R162). -/
  | lh (rd rs1 : Reg) (imm : BitVec 12)
  /-- LW (R163). -/
  | lw (rd rs1 : Reg) (imm : BitVec 12)
  /-- LBU (R164). -/
  | lbu (rd rs1 : Reg) (imm : BitVec 12)
  /-- LHU (R165). -/
  | lhu (rd rs1 : Reg) (imm : BitVec 12)
  /-- SB (R171). -/
  | sb (rs1 rs2 : Reg) (imm : BitVec 12)
  /-- SH (R172). -/
  | sh (rs1 rs2 : Reg) (imm : BitVec 12)
  /-- SW (R173). -/
  | sw (rs1 rs2 : Reg) (imm : BitVec 12)
  /-- ADDI (R181). -/
  | addi (rd rs1 : Reg) (imm : BitVec 12)
  /-- SLTI (R182). -/
  | slti (rd rs1 : Reg) (imm : BitVec 12)
  /-- SLTIU (R183). -/
  | sltiu (rd rs1 : Reg) (imm : BitVec 12)
  /-- XORI (R184). -/
  | xori (rd rs1 : Reg) (imm : BitVec 12)
  /-- ORI (R185). -/
  | ori (rd rs1 : Reg) (imm : BitVec 12)
  /-- ANDI (R186). -/
  | andi (rd rs1 : Reg) (imm : BitVec 12)
  /-- SLLI (R187). -/
  | slli (rd rs1 : Reg) (shamt : BitVec 5)
  /-- SRLI (R188). -/
  | srli (rd rs1 : Reg) (shamt : BitVec 5)
  /-- SRAI (R189). -/
  | srai (rd rs1 : Reg) (shamt : BitVec 5)
  /-- ADD (R196). -/
  | add (rd rs1 rs2 : Reg)
  /-- SUB (R197). -/
  | sub (rd rs1 rs2 : Reg)
  /-- SLL (R198). -/
  | sll (rd rs1 rs2 : Reg)
  /-- SLT (R199). -/
  | slt (rd rs1 rs2 : Reg)
  /-- SLTU (R200). -/
  | sltu (rd rs1 rs2 : Reg)
  /-- XOR (R201). -/
  | xor (rd rs1 rs2 : Reg)
  /-- SRL (R202). -/
  | srl (rd rs1 rs2 : Reg)
  /-- SRA (R203). -/
  | sra (rd rs1 rs2 : Reg)
  /-- OR (R204). -/
  | or (rd rs1 rs2 : Reg)
  /-- AND (R205). -/
  | and (rd rs1 rs2 : Reg)
  deriving DecidableEq, Repr

end Sys2Proof
end

