-- ==== Sys2Proof/WellFormed.lean ====
section
/-! DEFINITION. Which terms of `Instr` are instructions: those some word decodes to. -/

namespace Sys2Proof

/-- B- and J-type offsets are "always even": "bit 0 implicitly zero" (30_encoding.md R108, R109). Every other
operand may take every value of its width. -/
def Instr.wf : Instr → Bool
  | .beq _ _ offset | .bne _ _ offset | .blt _ _ offset | .bge _ _ offset | .bltu _ _ offset | .bgeu _ _ offset =>
    !offset.getLsbD 0
  | .jal _ offset => !offset.getLsbD 0
  | .lui .. | .auipc .. | .jalr .. => true
  | .lb .. | .lh .. | .lw .. | .lbu .. | .lhu .. => true
  | .sb .. | .sh .. | .sw .. => true
  | .addi .. | .slti .. | .sltiu .. | .xori .. | .ori .. | .andi .. => true
  | .slli .. | .srli .. | .srai .. => true
  | .add .. | .sub .. | .sll .. | .slt .. | .sltu .. | .xor .. | .srl .. | .sra .. | .or .. | .and .. => true

end Sys2Proof
end

