-- ==== Sys2Proof/Decode.lean ====
section
/-! DEFINITION. The instruction word (spec/30_encoding.md): fields, immediates, the decoder, and after it the
encoder. -/

namespace Sys2Proof

/-! ### Fields of the word (R101) -/

def opcodeOf (w : Word) : BitVec 7 := w.extractLsb' 0 7
def rdOf (w : Word) : Reg := w.extractLsb' 7 5
def funct3Of (w : Word) : BitVec 3 := w.extractLsb' 12 3
def rs1Of (w : Word) : Reg := w.extractLsb' 15 5
def rs2Of (w : Word) : Reg := w.extractLsb' 20 5
def funct7Of (w : Word) : BitVec 7 := w.extractLsb' 25 7

/-- Bit 5 of funct7, "which is inst[30]" (R118): the only bit of funct7 ever examined. -/
def inst30Of (w : Word) : Bool := w.getLsbD 30

/-! ### Immediate fields: the bits of the word in value order, before sign extension (R105 to R109) -/

/-- inst[31:20]. -/
def fieldI (w : Word) : BitVec 12 := w.extractLsb' 20 12
/-- inst[31:25] ++ inst[11:7]. -/
def fieldS (w : Word) : BitVec 12 := w.extractLsb' 25 7 ++ w.extractLsb' 7 5
/-- inst[31] ++ inst[7] ++ inst[30:25] ++ inst[11:8] ++ 0. -/
def fieldB (w : Word) : BitVec 13 :=
  w.extractLsb' 31 1 ++ w.extractLsb' 7 1 ++ w.extractLsb' 25 6 ++ w.extractLsb' 8 4 ++ 0#1
/-- inst[31:12]. -/
def fieldU (w : Word) : BitVec 20 := w.extractLsb' 12 20
/-- inst[31] ++ inst[19:12] ++ inst[20] ++ inst[30:21] ++ 0. -/
def fieldJ (w : Word) : BitVec 21 :=
  w.extractLsb' 31 1 ++ w.extractLsb' 12 8 ++ w.extractLsb' 20 1 ++ w.extractLsb' 21 10 ++ 0#1

/-! ### Immediate values: the 32-bit value an immediate field stands for (R105 to R111) -/

/-- I- and S-type value: sign-extended from the field's top bit. -/
def value12 (f : BitVec 12) : Word := f.signExtend 32
/-- B-type value. -/
def value13 (f : BitVec 13) : Word := f.signExtend 32
/-- J-type value. -/
def value21 (f : BitVec 21) : Word := f.signExtend 32
/-- U-type value: "low 12 bits zero, no sign extension" (R107). -/
def valueU (f : BitVec 20) : Word := f ++ 0#12

/-- The five immediate extractors, total on every word (R104). -/
def immI (w : Word) : Word := value12 (fieldI w)
def immS (w : Word) : Word := value12 (fieldS w)
def immU (w : Word) : Word := valueU (fieldU w)
def immB (w : Word) : Word := value13 (fieldB w)
def immJ (w : Word) : Word := value21 (fieldJ w)

/-! ### The operation tag (R113 to R119) -/

/-- The operation tag: "an enumerated, closed set" of 37 operations and the sentinel UNRECOGNIZED (R126). -/
inductive Tag
  | lui | auipc | jal | jalr
  | beq | bne | blt | bge | bltu | bgeu
  | lb | lh | lw | lbu | lhu
  | sb | sh | sw
  | addi | slti | sltiu | xori | ori | andi | slli | srli | srai
  | add | sub | sll | slt | sltu | xor | srl | sra | or | and
  | unrecognized
  deriving DecidableEq, Repr

/-- Branch family by funct3 (R115). -/
def branchTag (f3 : BitVec 3) : Tag :=
  if f3 = 0b000#3 then .beq
  else if f3 = 0b001#3 then .bne
  else if f3 = 0b100#3 then .blt
  else if f3 = 0b101#3 then .bge
  else if f3 = 0b110#3 then .bltu
  else if f3 = 0b111#3 then .bgeu
  else .unrecognized

/-- Load family by funct3 (R116). -/
def loadTag (f3 : BitVec 3) : Tag :=
  if f3 = 0b000#3 then .lb
  else if f3 = 0b001#3 then .lh
  else if f3 = 0b010#3 then .lw
  else if f3 = 0b100#3 then .lbu
  else if f3 = 0b101#3 then .lhu
  else .unrecognized

/-- Store family by funct3 (R117). -/
def storeTag (f3 : BitVec 3) : Tag :=
  if f3 = 0b000#3 then .sb
  else if f3 = 0b001#3 then .sh
  else if f3 = 0b010#3 then .sw
  else .unrecognized

/-- Immediate-ALU family by funct3, and by inst[30] for the right shifts (R118). -/
def aluImmTag (f3 : BitVec 3) (b30 : Bool) : Tag :=
  if f3 = 0b000#3 then .addi
  else if f3 = 0b001#3 then .slli
  else if f3 = 0b010#3 then .slti
  else if f3 = 0b011#3 then .sltiu
  else if f3 = 0b100#3 then .xori
  else if f3 = 0b101#3 then (if b30 then .srai else .srli)
  else if f3 = 0b110#3 then .ori
  else .andi

/-- Register-ALU family by funct3, and by inst[30] for 000 and 101 (R119). -/
def aluRegTag (f3 : BitVec 3) (b30 : Bool) : Tag :=
  if f3 = 0b000#3 then (if b30 then .sub else .add)
  else if f3 = 0b001#3 then .sll
  else if f3 = 0b010#3 then .slt
  else if f3 = 0b011#3 then .sltu
  else if f3 = 0b100#3 then .xor
  else if f3 = 0b101#3 then (if b30 then .sra else .srl)
  else if f3 = 0b110#3 then .or
  else .and

/-- First key, the opcode (R114); "any other opcode -> unrecognized sentinel" (R121). -/
def tagOfKeys (op : BitVec 7) (f3 : BitVec 3) (b30 : Bool) : Tag :=
  if op = 0b0110111#7 then .lui
  else if op = 0b0010111#7 then .auipc
  else if op = 0b1101111#7 then .jal
  else if op = 0b1100111#7 then .jalr
  else if op = 0b1100011#7 then branchTag f3
  else if op = 0b0000011#7 then loadTag f3
  else if op = 0b0100011#7 then storeTag f3
  else if op = 0b0010011#7 then aluImmTag f3 b30
  else if op = 0b0110011#7 then aluRegTag f3 b30
  else .unrecognized

/-- decode(word) -> OperationTag (R113). -/
def tagOf (w : Word) : Tag := tagOfKeys (opcodeOf w) (funct3Of w) (inst30Of w)

/-! ### The decoder -/

/-- Why a word is UNRECOGNIZED (R122), or why there is no word. -/
inductive Unrecognized
  /-- The opcode is outside the dispatch table and is not 1110011 (R122 case 1). -/
  | opcode
  /-- The opcode is 1110011, where the unimplemented system features lie (R210). -/
  | system
  /-- Opcode 1100011 with funct3 010 or 011 (R122 case 2). -/
  | branchFunct3
  /-- Opcode 0000011 with funct3 011, 110 or 111 (R122 case 3). -/
  | loadFunct3
  /-- Opcode 0100011 with funct3 011 to 111 (R122 case 4). -/
  | storeFunct3
  /-- Fewer than four bytes: "the instruction word is always 4 bytes" (20_memory.md R85). Only `decodeBytes`
  answers it; the machine always fetches four. -/
  | tooShort
  deriving DecidableEq, Repr

/-- What the decoder answers: an instruction, or the sentinel with its reason. -/
inductive Decoded
  | instr (i : Instr)
  | unrecognized (why : Unrecognized)
  deriving DecidableEq, Repr

/-- The name of the case of R122 an unrecognized word falls under. -/
def whyUnrecognized (w : Word) : Unrecognized :=
  if opcodeOf w = 0b1110011#7 then .system
  else if opcodeOf w = 0b1100011#7 then .branchFunct3
  else if opcodeOf w = 0b0000011#7 then .loadFunct3
  else if opcodeOf w = 0b0100011#7 then .storeFunct3
  else .opcode

/-- The tag with the operands its format names (R103). -/
def decode (w : Word) : Decoded :=
  match tagOf w with
  | .lui => .instr (.lui (rdOf w) (fieldU w))
  | .auipc => .instr (.auipc (rdOf w) (fieldU w))
  | .jal => .instr (.jal (rdOf w) (fieldJ w))
  | .jalr => .instr (.jalr (rdOf w) (rs1Of w) (fieldI w))
  | .beq => .instr (.beq (rs1Of w) (rs2Of w) (fieldB w))
  | .bne => .instr (.bne (rs1Of w) (rs2Of w) (fieldB w))
  | .blt => .instr (.blt (rs1Of w) (rs2Of w) (fieldB w))
  | .bge => .instr (.bge (rs1Of w) (rs2Of w) (fieldB w))
  | .bltu => .instr (.bltu (rs1Of w) (rs2Of w) (fieldB w))
  | .bgeu => .instr (.bgeu (rs1Of w) (rs2Of w) (fieldB w))
  | .lb => .instr (.lb (rdOf w) (rs1Of w) (fieldI w))
  | .lh => .instr (.lh (rdOf w) (rs1Of w) (fieldI w))
  | .lw => .instr (.lw (rdOf w) (rs1Of w) (fieldI w))
  | .lbu => .instr (.lbu (rdOf w) (rs1Of w) (fieldI w))
  | .lhu => .instr (.lhu (rdOf w) (rs1Of w) (fieldI w))
  | .sb => .instr (.sb (rs1Of w) (rs2Of w) (fieldS w))
  | .sh => .instr (.sh (rs1Of w) (rs2Of w) (fieldS w))
  | .sw => .instr (.sw (rs1Of w) (rs2Of w) (fieldS w))
  | .addi => .instr (.addi (rdOf w) (rs1Of w) (fieldI w))
  | .slti => .instr (.slti (rdOf w) (rs1Of w) (fieldI w))
  | .sltiu => .instr (.sltiu (rdOf w) (rs1Of w) (fieldI w))
  | .xori => .instr (.xori (rdOf w) (rs1Of w) (fieldI w))
  | .ori => .instr (.ori (rdOf w) (rs1Of w) (fieldI w))
  | .andi => .instr (.andi (rdOf w) (rs1Of w) (fieldI w))
  | .slli => .instr (.slli (rdOf w) (rs1Of w) (rs2Of w))
  | .srli => .instr (.srli (rdOf w) (rs1Of w) (rs2Of w))
  | .srai => .instr (.srai (rdOf w) (rs1Of w) (rs2Of w))
  | .add => .instr (.add (rdOf w) (rs1Of w) (rs2Of w))
  | .sub => .instr (.sub (rdOf w) (rs1Of w) (rs2Of w))
  | .sll => .instr (.sll (rdOf w) (rs1Of w) (rs2Of w))
  | .slt => .instr (.slt (rdOf w) (rs1Of w) (rs2Of w))
  | .sltu => .instr (.sltu (rdOf w) (rs1Of w) (rs2Of w))
  | .xor => .instr (.xor (rdOf w) (rs1Of w) (rs2Of w))
  | .srl => .instr (.srl (rdOf w) (rs1Of w) (rs2Of w))
  | .sra => .instr (.sra (rdOf w) (rs1Of w) (rs2Of w))
  | .or => .instr (.or (rdOf w) (rs1Of w) (rs2Of w))
  | .and => .instr (.and (rdOf w) (rs1Of w) (rs2Of w))
  | .unrecognized => .unrecognized (whyUnrecognized w)

/-- The 32-bit value of four bytes, the first being the one at the lowest address: bits 7:0
(20_memory.md R72, R84; log 7). -/
def wordOfBytes (b0 b1 b2 b3 : Byte) : Word := b3 ++ b2 ++ b1 ++ b0

/-- The four bytes of a word in address order (20_memory.md R68). -/
def bytesOfWord (w : Word) : List Byte :=
  [w.extractLsb' 0 8, w.extractLsb' 8 8, w.extractLsb' 16 8, w.extractLsb' 24 8]

/-- The decoder on bytes, total on any list: the instruction at its head and the bytes after it. -/
def decodeBytes : List Byte → Decoded × List Byte
  | b0 :: b1 :: b2 :: b3 :: rest => (decode (wordOfBytes b0 b1 b2 b3), rest)
  | bs => (.unrecognized .tooShort, bs)

/-- The instruction the decoder reads from the word `w` of the opcode table's numbering: its bytes laid out
as memory holds them, given to `decodeBytes`. -/
def decodeTableWord (nbits w : Nat) : Option Instr :=
  match (decodeBytes (bytesOfWord (BitVec.ofNat 32 (w % 2 ^ nbits)))).1 with
  | .instr i => some i
  | .unrecognized _ => none

/-! ### The operation of an instruction -/

/-- The tag of the operation an instruction is. -/
def Instr.tag : Instr → Tag
  | .lui .. => .lui | .auipc .. => .auipc | .jal .. => .jal | .jalr .. => .jalr
  | .beq .. => .beq | .bne .. => .bne | .blt .. => .blt | .bge .. => .bge | .bltu .. => .bltu | .bgeu .. => .bgeu
  | .lb .. => .lb | .lh .. => .lh | .lw .. => .lw | .lbu .. => .lbu | .lhu .. => .lhu
  | .sb .. => .sb | .sh .. => .sh | .sw .. => .sw
  | .addi .. => .addi | .slti .. => .slti | .sltiu .. => .sltiu | .xori .. => .xori | .ori .. => .ori
  | .andi .. => .andi | .slli .. => .slli | .srli .. => .srli | .srai .. => .srai
  | .add .. => .add | .sub .. => .sub | .sll .. => .sll | .slt .. => .slt | .sltu .. => .sltu | .xor .. => .xor
  | .srl .. => .srl | .sra .. => .sra | .or .. => .or | .and .. => .and

/-! ### The encoder: the canonical word of an instruction (R127, R130) -/

/-- R: funct7 | rs2 | rs1 | funct3 | rd | opcode. -/
def encodeR (f7 : BitVec 7) (rs2 rs1 : Reg) (f3 : BitVec 3) (rd : Reg) (op : BitVec 7) : Word :=
  f7 ++ rs2 ++ rs1 ++ f3 ++ rd ++ op

/-- I: imm[11:0] | rs1 | funct3 | rd | opcode. -/
def encodeI (imm : BitVec 12) (rs1 : Reg) (f3 : BitVec 3) (rd : Reg) (op : BitVec 7) : Word :=
  imm ++ rs1 ++ f3 ++ rd ++ op

/-- S: imm[11:5] | rs2 | rs1 | funct3 | imm[4:0] | opcode. -/
def encodeS (imm : BitVec 12) (rs2 rs1 : Reg) (f3 : BitVec 3) (op : BitVec 7) : Word :=
  imm.extractLsb' 5 7 ++ rs2 ++ rs1 ++ f3 ++ imm.extractLsb' 0 5 ++ op

/-- B: imm[12] | imm[10:5] | rs2 | rs1 | funct3 | imm[4:1] | imm[11] | opcode. -/
def encodeB (imm : BitVec 13) (rs2 rs1 : Reg) (f3 : BitVec 3) (op : BitVec 7) : Word :=
  imm.extractLsb' 12 1 ++ imm.extractLsb' 5 6 ++ rs2 ++ rs1 ++ f3 ++ imm.extractLsb' 1 4 ++ imm.extractLsb' 11 1 ++ op

/-- U: imm[31:12] | rd | opcode. -/
def encodeU (imm : BitVec 20) (rd : Reg) (op : BitVec 7) : Word := imm ++ rd ++ op

/-- J: imm[20] | imm[10:1] | imm[11] | imm[19:12] | rd | opcode. -/
def encodeJ (imm : BitVec 21) (rd : Reg) (op : BitVec 7) : Word :=
  imm.extractLsb' 20 1 ++ imm.extractLsb' 1 10 ++ imm.extractLsb' 11 1 ++ imm.extractLsb' 12 8 ++ rd ++ op

/-- The canonical word: "sets every bit the decoder ignores to zero, except inst[30] = 1 for SUB, SRA, SRAI"
(R127). -/
def encode : Instr → Word
  | .lui rd imm => encodeU imm rd 0b0110111#7
  | .auipc rd imm => encodeU imm rd 0b0010111#7
  | .jal rd offset => encodeJ offset rd 0b1101111#7
  | .jalr rd rs1 imm => encodeI imm rs1 0b000#3 rd 0b1100111#7
  | .beq rs1 rs2 offset => encodeB offset rs2 rs1 0b000#3 0b1100011#7
  | .bne rs1 rs2 offset => encodeB offset rs2 rs1 0b001#3 0b1100011#7
  | .blt rs1 rs2 offset => encodeB offset rs2 rs1 0b100#3 0b1100011#7
  | .bge rs1 rs2 offset => encodeB offset rs2 rs1 0b101#3 0b1100011#7
  | .bltu rs1 rs2 offset => encodeB offset rs2 rs1 0b110#3 0b1100011#7
  | .bgeu rs1 rs2 offset => encodeB offset rs2 rs1 0b111#3 0b1100011#7
  | .lb rd rs1 imm => encodeI imm rs1 0b000#3 rd 0b0000011#7
  | .lh rd rs1 imm => encodeI imm rs1 0b001#3 rd 0b0000011#7
  | .lw rd rs1 imm => encodeI imm rs1 0b010#3 rd 0b0000011#7
  | .lbu rd rs1 imm => encodeI imm rs1 0b100#3 rd 0b0000011#7
  | .lhu rd rs1 imm => encodeI imm rs1 0b101#3 rd 0b0000011#7
  | .sb rs1 rs2 imm => encodeS imm rs2 rs1 0b000#3 0b0100011#7
  | .sh rs1 rs2 imm => encodeS imm rs2 rs1 0b001#3 0b0100011#7
  | .sw rs1 rs2 imm => encodeS imm rs2 rs1 0b010#3 0b0100011#7
  | .addi rd rs1 imm => encodeI imm rs1 0b000#3 rd 0b0010011#7
  | .slti rd rs1 imm => encodeI imm rs1 0b010#3 rd 0b0010011#7
  | .sltiu rd rs1 imm => encodeI imm rs1 0b011#3 rd 0b0010011#7
  | .xori rd rs1 imm => encodeI imm rs1 0b100#3 rd 0b0010011#7
  | .ori rd rs1 imm => encodeI imm rs1 0b110#3 rd 0b0010011#7
  | .andi rd rs1 imm => encodeI imm rs1 0b111#3 rd 0b0010011#7
  | .slli rd rs1 shamt => encodeR 0b0000000#7 shamt rs1 0b001#3 rd 0b0010011#7
  | .srli rd rs1 shamt => encodeR 0b0000000#7 shamt rs1 0b101#3 rd 0b0010011#7
  | .srai rd rs1 shamt => encodeR 0b0100000#7 shamt rs1 0b101#3 rd 0b0010011#7
  | .add rd rs1 rs2 => encodeR 0b0000000#7 rs2 rs1 0b000#3 rd 0b0110011#7
  | .sub rd rs1 rs2 => encodeR 0b0100000#7 rs2 rs1 0b000#3 rd 0b0110011#7
  | .sll rd rs1 rs2 => encodeR 0b0000000#7 rs2 rs1 0b001#3 rd 0b0110011#7
  | .slt rd rs1 rs2 => encodeR 0b0000000#7 rs2 rs1 0b010#3 rd 0b0110011#7
  | .sltu rd rs1 rs2 => encodeR 0b0000000#7 rs2 rs1 0b011#3 rd 0b0110011#7
  | .xor rd rs1 rs2 => encodeR 0b0000000#7 rs2 rs1 0b100#3 rd 0b0110011#7
  | .srl rd rs1 rs2 => encodeR 0b0000000#7 rs2 rs1 0b101#3 rd 0b0110011#7
  | .sra rd rs1 rs2 => encodeR 0b0100000#7 rs2 rs1 0b101#3 rd 0b0110011#7
  | .or rd rs1 rs2 => encodeR 0b0000000#7 rs2 rs1 0b110#3 rd 0b0110011#7
  | .and rd rs1 rs2 => encodeR 0b0000000#7 rs2 rs1 0b111#3 rd 0b0110011#7

/-- The bytes of an instruction as memory holds them. -/
def encodeBytes (i : Instr) : List Byte := bytesOfWord (encode i)

/-! ### The opcode table as masks and matches (R131): a second decoder, for statements about the first -/

/-- A row of spec/opcode_table.json: the decoder's mask and match, and those of the canonical word (R127). -/
structure TableRow where
  tag : Tag
  mask : Word
  pattern : Word
  canonicalMask : Word
  canonicalPattern : Word
  deriving DecidableEq, Repr

/-- LUI to BGEU. -/
def rowsControl : List TableRow :=
  [
    ⟨.lui, 0x0000007F#32, 0x00000037#32, 0x0000007F#32, 0x00000037#32⟩,
    ⟨.auipc, 0x0000007F#32, 0x00000017#32, 0x0000007F#32, 0x00000017#32⟩,
    ⟨.jal, 0x0000007F#32, 0x0000006F#32, 0x0000007F#32, 0x0000006F#32⟩,
    ⟨.jalr, 0x0000007F#32, 0x00000067#32, 0x0000707F#32, 0x00000067#32⟩,
    ⟨.beq, 0x0000707F#32, 0x00000063#32, 0x0000707F#32, 0x00000063#32⟩,
    ⟨.bne, 0x0000707F#32, 0x00001063#32, 0x0000707F#32, 0x00001063#32⟩,
    ⟨.blt, 0x0000707F#32, 0x00004063#32, 0x0000707F#32, 0x00004063#32⟩,
    ⟨.bge, 0x0000707F#32, 0x00005063#32, 0x0000707F#32, 0x00005063#32⟩,
    ⟨.bltu, 0x0000707F#32, 0x00006063#32, 0x0000707F#32, 0x00006063#32⟩,
    ⟨.bgeu, 0x0000707F#32, 0x00007063#32, 0x0000707F#32, 0x00007063#32⟩ ]

/-- The loads and stores. -/
def rowsMemory : List TableRow :=
  [
    ⟨.lb, 0x0000707F#32, 0x00000003#32, 0x0000707F#32, 0x00000003#32⟩,
    ⟨.lh, 0x0000707F#32, 0x00001003#32, 0x0000707F#32, 0x00001003#32⟩,
    ⟨.lw, 0x0000707F#32, 0x00002003#32, 0x0000707F#32, 0x00002003#32⟩,
    ⟨.lbu, 0x0000707F#32, 0x00004003#32, 0x0000707F#32, 0x00004003#32⟩,
    ⟨.lhu, 0x0000707F#32, 0x00005003#32, 0x0000707F#32, 0x00005003#32⟩,
    ⟨.sb, 0x0000707F#32, 0x00000023#32, 0x0000707F#32, 0x00000023#32⟩,
    ⟨.sh, 0x0000707F#32, 0x00001023#32, 0x0000707F#32, 0x00001023#32⟩,
    ⟨.sw, 0x0000707F#32, 0x00002023#32, 0x0000707F#32, 0x00002023#32⟩ ]

/-- The immediate-ALU rows. -/
def rowsImmediate : List TableRow :=
  [
    ⟨.addi, 0x0000707F#32, 0x00000013#32, 0x0000707F#32, 0x00000013#32⟩,
    ⟨.slti, 0x0000707F#32, 0x00002013#32, 0x0000707F#32, 0x00002013#32⟩,
    ⟨.sltiu, 0x0000707F#32, 0x00003013#32, 0x0000707F#32, 0x00003013#32⟩,
    ⟨.xori, 0x0000707F#32, 0x00004013#32, 0x0000707F#32, 0x00004013#32⟩,
    ⟨.ori, 0x0000707F#32, 0x00006013#32, 0x0000707F#32, 0x00006013#32⟩,
    ⟨.andi, 0x0000707F#32, 0x00007013#32, 0x0000707F#32, 0x00007013#32⟩,
    ⟨.slli, 0x0000707F#32, 0x00001013#32, 0xFE00707F#32, 0x00001013#32⟩,
    ⟨.srli, 0x4000707F#32, 0x00005013#32, 0xFE00707F#32, 0x00005013#32⟩,
    ⟨.srai, 0x4000707F#32, 0x40005013#32, 0xFE00707F#32, 0x40005013#32⟩ ]

/-- The register-ALU rows. -/
def rowsRegister : List TableRow :=
  [
    ⟨.add, 0x4000707F#32, 0x00000033#32, 0xFE00707F#32, 0x00000033#32⟩,
    ⟨.sub, 0x4000707F#32, 0x40000033#32, 0xFE00707F#32, 0x40000033#32⟩,
    ⟨.sll, 0x0000707F#32, 0x00001033#32, 0xFE00707F#32, 0x00001033#32⟩,
    ⟨.slt, 0x0000707F#32, 0x00002033#32, 0xFE00707F#32, 0x00002033#32⟩,
    ⟨.sltu, 0x0000707F#32, 0x00003033#32, 0xFE00707F#32, 0x00003033#32⟩,
    ⟨.xor, 0x0000707F#32, 0x00004033#32, 0xFE00707F#32, 0x00004033#32⟩,
    ⟨.srl, 0x4000707F#32, 0x00005033#32, 0xFE00707F#32, 0x00005033#32⟩,
    ⟨.sra, 0x4000707F#32, 0x40005033#32, 0xFE00707F#32, 0x40005033#32⟩,
    ⟨.or, 0x0000707F#32, 0x00006033#32, 0xFE00707F#32, 0x00006033#32⟩,
    ⟨.and, 0x0000707F#32, 0x00007033#32, 0xFE00707F#32, 0x00007033#32⟩ ]

/-- "One row per operation, 37 rows" (R131). -/
def opcodeTable : List TableRow := rowsControl ++ rowsMemory ++ rowsImmediate ++ rowsRegister

/-- "A word w selects the row whose (w & mask) == match" (R131). -/
def TableRow.selects (row : TableRow) (w : Word) : Bool := w &&& row.mask == row.pattern

/-- The word is the canonical one of the row's operation: every bit the decoder ignores as R127 says. -/
def TableRow.canonical (row : TableRow) (w : Word) : Bool := w &&& row.canonicalMask == row.canonicalPattern

end Sys2Proof
end

