-- ==== Sys2Proof/Machine/State.lean ====
section
/-! DEFINITION. The state of the machine as plain data (spec/10_state.md), the reasons a step can stop, and the
state after reset. -/

namespace Sys2Proof.Machine

/-- The length of a transaction: "1, 2 or 4 bytes" (20_memory.md R66). -/
inductive Len
  | one
  | two
  | four
  deriving DecidableEq, Repr

/-- The direction of a transaction (20_memory.md R66). -/
inductive Direction
  | read
  | write
  deriving DecidableEq, Repr

/-- The four faults (60_exceptions.md R240, R254), each with the fields of its fault record (R247). All four are
fatal (R246). The spec gives the state a fault leaves (R225, R244), so a fault is taken as a NEXT state whose
`faultInfo` holds it, and no step answers `Host.Outcome.fault` (log 4). -/
inductive Fault
  /-- The fetched word is UNRECOGNIZED and its opcode is not 1110011 (R241). Raised by the decode phase of a
  cycle. Safe: the spec states this outcome. -/
  | decodeFault (pc inst : Word)
  /-- An access with address + length > MEM_SIZE (R242). Raised by the fetch, the five loads and the three
  stores. Safe: the spec states this outcome. -/
  | accessFault (pc addr : Word) (len : Len) (dir : Direction)
  /-- The fetched word has opcode 1110011 (R243). Raised by the decode phase of a cycle. Safe: the spec states
  this outcome. -/
  | unimplementedFeature (pc inst : Word)
  /-- A read through a direct-access grant after its invalidation (R245). Raised by `State.grantRead`; the fetch
  path checks validity first, so no step raises it. Safe: the spec says a conforming core never does. -/
  | invalidatedAccess (pc : Word)
  deriving DecidableEq, Repr

/-- Why the model answers nothing: inputs outside the model's domain. -/
inductive Refusal
  /-- An instruction without a meaning: only a refused arm of `exec` answers it. No arm does. Safe. -/
  | notModelled (mnemonic : String)
  /-- A debug access to a register index above 31: "outside the contract; a model refuses it" (10_state.md R34,
  93_implementation_defined.md U9). Raised by `HostMove.apply`. Safe. -/
  | registerIndex (index : Nat)
  /-- A debug access whose length is not 1, 2 or 4 (93_implementation_defined.md U10). Raised by
  `HostMove.apply`. Safe. -/
  | accessLength (length : Nat)
  /-- A loader record outside the memory: "a model refuses such a launch" (20_memory.md R74, U7). Raised by
  `State.loadImage`. Safe. -/
  | loaderRecord (addr length : Nat)
  deriving DecidableEq, Repr

/-- The states of the fetch-execute loop (10_state.md R42). -/
inductive LoopState
  | running
  | faulted
  | halted
  deriving DecidableEq, Repr

/-- The fetch path's direct-access grant: the window [first, last] of memory addresses and its validity flag
(10_state.md R45, 20_memory.md R79, R80). -/
structure Grant where
  first : Nat
  last : Nat
  valid : Bool
  deriving DecidableEq, Repr

/-- A telemetry event (48_fetch_execute_loop.md R231). -/
inductive Event
  /-- A completed cycle, "carrying the operation tag". -/
  | executed (op : Tag)
  /-- A fault, "carrying fault_info". -/
  | faulted (info : Fault)
  deriving DecidableEq, Repr

/-- Memory contents: address and byte pairs, addresses strictly rising, no byte equal to what an unlisted
address reads as (`Memory.wf`). -/
abbrev Memory := List Host.Cell

/-- What an address that is not listed reads as. INIT_MEM has no value in the spec; every image is some list over
this byte, so only `State.reset`, which lists nothing, rests on it. DESIGN CHOICE, log 2 (unsafe). -/
def Memory.unlisted : Byte := 0

/-- The canonical form: equal memories are equal lists. -/
abbrev Memory.wf (m : Memory) : Prop :=
  m.Pairwise (fun c d => c.1 < d.1) ∧ ∀ c ∈ m, c.2 ≠ Memory.unlisted

/-- "The complete state of the machine is: x1 to x31, pc, memory, and the hidden items of rules R42 to R46"
(10_state.md R49), with the emitted events, and two fields of the model's own: `grantRequests` and `cfg`. -/
structure State where
  /-- x1 to x31; x0 is hardwired (R30, R32) and has no cell. Read and written through `State.readReg` and
  `State.writeReg`. -/
  regs : Vector Word 31
  /-- The program counter (R37). -/
  pc : Word
  /-- The byte array (R47). -/
  mem : Memory
  /-- loop_state (R42). -/
  loopState : LoopState
  /-- fault_info (R43). -/
  faultInfo : Option Fault
  /-- stop_requested (R46). -/
  stopRequested : Bool
  /-- The fetch path's grant, if it holds one (R45). -/
  grant : Option Grant
  /-- The MODEL's own field: the fetch path's coming choices, next one first, where 20_memory.md R82 leaves it to
  either request a new grant (true) or use the timed transaction (false, and when the list is empty). A statement
  about every state covers every sequence of choices. DESIGN CHOICE, log 5. -/
  grantRequests : List Bool
  /-- sim_time (R44). -/
  simTime : Nat
  /-- The events emitted so far, oldest first (48_fetch_execute_loop.md R231). An output: nothing reads it
  (log 6). -/
  telemetry : List Event
  /-- The parameters (00_scope.md R8); no step and no host move changes them (60_exceptions.md R259; log 1). -/
  cfg : Config
  deriving DecidableEq, Repr

/-- The state after reset for given parameters and memory contents INIT_MEM (10_state.md R50,
70_reset_and_hazards.md R270). -/
def State.resetWith (cfg : Config) (image : Memory) : State :=
  { regs := Vector.replicate 31 0
    pc := cfg.resetVector
    mem := image
    loopState := .running
    faultInfo := none
    stopRequested := false
    grant := none
    grantRequests := []
    simTime := 0
    telemetry := []
    cfg := cfg }

/-- The machine right after reset, nothing loaded: `State.resetWith` at the parameters and the image the model
names (log 1, log 2). -/
def State.reset : State := State.resetWith Config.standard []

/-- What a meaning and a step answer. -/
abbrev Result := Host.Outcome State Fault Refusal

end Sys2Proof.Machine
end

