-- ==== Sys2Proof/Machine/Ops.lean ====
section
/-! DEFINITION. The named operations over the state: registers and pc, the byte array, the three access modes, the
fetch, and taking a fault. -/

namespace Sys2Proof.Machine

/-! ### Register file (10_state.md R32, R33) -/

/-- `read(index)`: 0 for x0, else the register's 32 bits. -/
def State.readReg (s : State) (r : Reg) : Word :=
  if r = 0#5 then 0#32 else s.regs[r.toNat - 1]'(by have := r.isLt; omega)

/-- `write(index, value)`: nothing for x0, else all 32 bits. This and `readReg` are the one place where x0 is
hardwired (R32). -/
def State.writeReg (s : State) (r : Reg) (v : Word) : State :=
  { s with regs := if r = 0#5 then s.regs else s.regs.set (r.toNat - 1) v (by have := r.isLt; omega) }

/-! ### Program counter (10_state.md R38 to R40) -/

/-- pc_next, "the address of the following instruction": pc + 4 modulo 2^32. -/
def State.pcNext (s : State) : Word := s.pc + 4

/-- Continue: pc <- pc + 4. -/
def State.advance (s : State) : State := { s with pc := s.pcNext }

/-- Redirect(t): pc <- t. -/
def State.redirect (s : State) (t : Word) : State := { s with pc := t }

/-! ### The byte array (20_memory.md R60, R62) -/

/-- The byte at an address. -/
def Memory.byte : Memory → Nat → Byte
  | [], _ => Memory.unlisted
  | c :: m, a => if c.1 = a then c.2 else Memory.byte m a

/-- The list without the address. -/
def Memory.erase (m : Memory) (a : Nat) : Memory := m.filter (fun c => c.1 != a)

/-- The list with a cell put before the first larger address. -/
def Memory.insert : Memory → Nat → Byte → Memory
  | [], a, b => [(a, b)]
  | c :: m, a, b => if a < c.1 then (a, b) :: c :: m else c :: Memory.insert m a b

/-- One byte written, the canonical form kept: a byte equal to what an unlisted address reads as is not
listed. -/
def Memory.set (m : Memory) (a : Nat) (b : Byte) : Memory :=
  if b = Memory.unlisted then m.erase a else (m.erase a).insert a b

/-- How many bytes a transaction moves. -/
def Len.bytes : Len → Nat
  | .one => 1
  | .two => 2
  | .four => 4

/-- The 8n-bit value at an address, in the low bits of a word: the byte at the lowest address is the least
significant (20_memory.md R67, R72; log 7). -/
def Memory.read (m : Memory) (a : Nat) : Len → Word
  | .one => (m.byte a).setWidth 32
  | .two => (m.byte (a + 1) ++ m.byte a).setWidth 32
  | .four => m.byte (a + 3) ++ m.byte (a + 2) ++ m.byte (a + 1) ++ m.byte a

/-- The low n bytes of a word stored: mem[a + i] <- v[8i+7 : 8i] (20_memory.md R68; log 7). -/
def Memory.write (m : Memory) (a : Nat) (v : Word) : Len → Memory
  | .one => m.set a (v.extractLsb' 0 8)
  | .two => (m.set a (v.extractLsb' 0 8)).set (a + 1) (v.extractLsb' 8 8)
  | .four =>
    (((m.set a (v.extractLsb' 0 8)).set (a + 1) (v.extractLsb' 8 8)).set (a + 2) (v.extractLsb' 16 8)).set (a + 3)
      (v.extractLsb' 24 8)

/-! ### Accesses (20_memory.md R64 to R70) -/

/-- The bounds check: address + length <= MEM_SIZE, the sum taken without wrapping (R69; log 10). -/
def State.inBounds (s : State) (a : Word) (n : Len) : Bool := a.toNat + n.bytes ≤ s.cfg.memSize

/-- The read every access mode performs on the one backing store: none is the out-of-bounds error. -/
def State.readAccess (s : State) (a : Word) (n : Len) : Option Word :=
  if s.inBounds a n then some (s.mem.read a.toNat n) else none

/-- The write every access mode performs: none is the out-of-bounds error, with nothing written (R70). -/
def State.writeAccess (s : State) (a : Word) (n : Len) (v : Word) : Option State :=
  if s.inBounds a n then some { s with mem := s.mem.write a.toNat v n } else none

/-- What a timed transaction, successful or failing, adds to sim_time (R91; log 16). -/
def State.chargeAccess (s : State) : State := { s with simTime := s.simTime + s.cfg.accessLatency }

/-- MemRead(addr, n): one timed read transaction (00_scope.md R15, R67); its error is the AccessFault of the
instruction at pc (R70, 60_exceptions.md R242). -/
def State.timedRead (s : State) (a : Word) (n : Len) : State × Except Fault Word :=
  (s.chargeAccess,
    match s.readAccess a n with
    | some v => .ok v
    | none => .error (.accessFault s.pc a n .read))

/-- MemWrite(addr, n, v): one timed write transaction (00_scope.md R15, R68); it answers the fault, if any. -/
def State.timedWrite (s : State) (a : Word) (n : Len) (v : Word) : State × Option Fault :=
  match s.chargeAccess.writeAccess a n v with
  | some t => (t, none)
  | none => (s.chargeAccess, some (.accessFault s.pc a n .write))

/-! ### The direct-access grant and the fetch (20_memory.md R79 to R85) -/

/-- The grant a request yields: the whole memory (R80; log 5). -/
def State.wholeMemory (s : State) : Grant := { first := 0, last := s.cfg.memSize - 1, valid := true }

/-- Valid, and the four bytes at the address lie wholly inside the window (R80). -/
def Grant.covers (g : Grant) (a : Word) : Bool :=
  g.valid && decide (g.first ≤ a.toNat) && decide (a.toNat + 4 ≤ g.last + 1)

/-- A fetch-sized read through a grant: the backing store's bytes at that moment, no simulated time (R79, R83); on
an invalid grant InvalidatedAccess (60_exceptions.md R245); outside memory AccessFault (R84). -/
def State.grantRead (s : State) (g : Grant) (a : Word) : Except Fault Word :=
  if g.valid then
    match s.readAccess a .four with
    | some v => .ok v
    | none => .error (.accessFault s.pc a .four .read)
  else .error (.invalidatedAccess s.pc)

/-- "If the grant is absent or invalid it requests a new one or uses the timed transaction" (R82): the choice is
the head of `grantRequests`, used up by being made (log 5). -/
def State.renewGrant (s : State) : State :=
  match s.grant with
  | some { valid := true, .. } => s
  | _ =>
    match s.grantRequests with
    | [] => s
    | true :: rest => { s with grant := some s.wholeMemory, grantRequests := rest }
    | false :: rest => { s with grantRequests := rest }

/-- The grant the fetch path may use for the fetch at an address: validity is checked "before every use" (R82). -/
def State.usableGrant (s : State) (a : Word) : Option Grant :=
  match s.grant with
  | some g => if g.covers a then some g else none
  | none => none

/-- Fetch(pc): through a usable grant, else by a timed read of length 4 (R65, R84). -/
def State.fetch (s : State) : State × Except Fault Word :=
  let t := s.renewGrant
  match t.usableGrant t.pc with
  | some g => (t, t.grantRead g t.pc)
  | none => t.timedRead t.pc .four

/-! ### Taking a fault (48_fetch_execute_loop.md R225; 60_exceptions.md R244, R246, R247) -/

/-- raise: loop_state <- Faulted, the record is kept, one report goes to the sink; registers, pc and memory stay.
There is no return from a fault: "no event leaves Faulted" (R226, R251). -/
def State.takeFault (s : State) (f : Fault) : State :=
  { s with loopState := .faulted, faultInfo := some f, telemetry := s.telemetry ++ [.faulted f] }

/-- The fault of an UNRECOGNIZED word (47_system_unimplemented.md R212). -/
def faultOfUnrecognized (pc inst : Word) : Fault :=
  if opcodeOf inst = 0b1110011#7 then .unimplementedFeature pc inst else .decodeFault pc inst

/-! ### Templates the families share -/

/-- x[rd] <- v; pc <- pc + 4. -/
def State.writeBack (s : State) (rd : Reg) (v : Word) : Result := .next (s.writeReg rd v).advance

/-- x[rd] <- pc + 4; pc <- t (41_jumps.md R145, R146). -/
def State.link (s : State) (rd : Reg) (t : Word) : Result := .next ((s.writeReg rd s.pcNext).redirect t)

/-- if cond then pc <- pc + offset else pc <- pc + 4 (42_branches.md R150). -/
def State.branch (s : State) (cond : Bool) (offset : Word) : Result :=
  .next (if cond then s.redirect (s.pc + offset) else s.advance)

/-- The loads' common pseudocode (43_loads.md R160): v <- MemRead(ea, n); x[rd] <- ext(v); pc <- pc + 4. -/
def State.load (s : State) (n : Len) (ext : Word → Word) (rd : Reg) (ea : Word) : Result :=
  match s.timedRead ea n with
  | (t, .ok v) => .next (t.writeReg rd (ext v)).advance
  | (t, .error f) => .next (t.takeFault f)

/-- The stores' common pseudocode (44_stores.md R170): MemWrite(ea, n, v); pc <- pc + 4. -/
def State.store (s : State) (n : Len) (ea v : Word) : Result :=
  match s.timedWrite ea n v with
  | (t, none) => .next t.advance
  | (t, some f) => .next (t.takeFault f)

end Sys2Proof.Machine
end

