-- ==== Sys2Proof/Machine/Operands.lean ====
section
/-! DEFINITION. Operand forms: the addressing mode, the shift amount, and the extensions of loaded data. The
immediates' values are `value12`, `value13`, `value21` and `valueU` of Decode.lean. -/

namespace Sys2Proof.Machine

/-- ea <- x[rs1] + imm modulo 2^32, the only addressing mode (43_loads.md R160, 44_stores.md R170). -/
def State.effectiveAddress (s : State) (rs1 : Reg) (imm : BitVec 12) : Word := s.readReg rs1 + value12 imm

/-- "Shift amount is the low 5 bits of rs2", of the register's value (46_alu_register.md R195). -/
def shiftAmount (b : Word) : BitVec 5 := b.extractLsb' 0 5

/-- sext_32(v[7:0]) (43_loads.md R161). -/
def signByte (v : Word) : Word := (v.extractLsb' 0 8).signExtend 32
/-- sext_32(v[15:0]) (R162). -/
def signHalf (v : Word) : Word := (v.extractLsb' 0 16).signExtend 32
/-- LW: "32 bits, no extension" (R163). -/
def wholeWord (v : Word) : Word := v
/-- zext_32(v[7:0]) (R164). -/
def zeroByte (v : Word) : Word := (v.extractLsb' 0 8).setWidth 32
/-- zext_32(v[15:0]) (R165). -/
def zeroHalf (v : Word) : Word := (v.extractLsb' 0 16).setWidth 32

end Sys2Proof.Machine
end

