-- ==== Sys2Proof/Machine/Flags.lean ====
section
/-! DEFINITION. The hardware "has no flags, condition codes or predicate registers" (00_scope.md R18): branches
compare registers directly and the set instructions write 0 or 1 to a register. This file holds those relations
(00_scope.md R12) and the ALU functions, none of which records carry or overflow (46_alu_register.md R206). -/

namespace Sys2Proof.Machine

/-! ### Relations (42_branches.md R151 to R156) -/

def isEq (a b : Word) : Bool := a == b
def isNe (a b : Word) : Bool := a != b
/-- signed(a) < signed(b). -/
def isLt (a b : Word) : Bool := a.slt b
/-- The negation of `isLt`. -/
def isGe (a b : Word) : Bool := !a.slt b
/-- unsigned(a) < unsigned(b). -/
def isLtu (a b : Word) : Bool := a.ult b
/-- The negation of `isLtu`. -/
def isGeu (a b : Word) : Bool := !a.ult b

/-! ### ALU functions (45_alu_immediate.md, 46_alu_register.md) -/

/-- Modulo 2^32 (R181, R196; log 9). -/
def aluAdd (a b : Word) : Word := a + b
/-- Modulo 2^32 (R197). -/
def aluSub (a b : Word) : Word := a - b
/-- 1 if a <s b else 0 (R182, R199; log 13). -/
def aluSlt (a b : Word) : Word := if isLt a b then 1 else 0
/-- 1 if a <u b else 0 (R183, R200; log 13). -/
def aluSltu (a b : Word) : Word := if isLtu a b then 1 else 0
def aluXor (a b : Word) : Word := a ^^^ b
def aluOr (a b : Word) : Word := a ||| b
def aluAnd (a b : Word) : Word := a &&& b
/-- Zeros enter at bit 0 (R187, R198). -/
def aluSll (a : Word) (n : BitVec 5) : Word := a <<< n.toNat
/-- Zeros enter at bit 31 (R188, R202). -/
def aluSrl (a : Word) (n : BitVec 5) : Word := a >>> n.toNat
/-- Copies of a[31] enter at bit 31 (R189, R203). -/
def aluSra (a : Word) (n : BitVec 5) : Word := a.sshiftRight n.toNat

end Sys2Proof.Machine
end

