-- ==== Sys2Proof/Machine/AluImmediate.lean ====
section
/-! DEFINITION. The nine immediate-ALU instructions (spec/45_alu_immediate.md R180 to R190): x[rd] <- f(x[rs1], imm_I). -/

namespace Sys2Proof.Machine

/-- ADDI (R181). -/
def execAddi (rd rs1 : Reg) (imm : BitVec 12) (s : State) : Result :=
  s.writeBack rd (aluAdd (s.readReg rs1) (value12 imm))

/-- SLTI (R182). -/
def execSlti (rd rs1 : Reg) (imm : BitVec 12) (s : State) : Result :=
  s.writeBack rd (aluSlt (s.readReg rs1) (value12 imm))

/-- SLTIU (R183). -/
def execSltiu (rd rs1 : Reg) (imm : BitVec 12) (s : State) : Result :=
  s.writeBack rd (aluSltu (s.readReg rs1) (value12 imm))

/-- XORI (R184). -/
def execXori (rd rs1 : Reg) (imm : BitVec 12) (s : State) : Result :=
  s.writeBack rd (aluXor (s.readReg rs1) (value12 imm))

/-- ORI (R185). -/
def execOri (rd rs1 : Reg) (imm : BitVec 12) (s : State) : Result :=
  s.writeBack rd (aluOr (s.readReg rs1) (value12 imm))

/-- ANDI (R186). -/
def execAndi (rd rs1 : Reg) (imm : BitVec 12) (s : State) : Result :=
  s.writeBack rd (aluAnd (s.readReg rs1) (value12 imm))

/-- SLLI (R187). -/
def execSlli (rd rs1 : Reg) (shamt : BitVec 5) (s : State) : Result :=
  s.writeBack rd (aluSll (s.readReg rs1) shamt)

/-- SRLI (R188). -/
def execSrli (rd rs1 : Reg) (shamt : BitVec 5) (s : State) : Result :=
  s.writeBack rd (aluSrl (s.readReg rs1) shamt)

/-- SRAI (R189). -/
def execSrai (rd rs1 : Reg) (shamt : BitVec 5) (s : State) : Result :=
  s.writeBack rd (aluSra (s.readReg rs1) shamt)

end Sys2Proof.Machine
end

