-- ==== Sys2Proof/Machine/AluRegister.lean ====
section
/-! DEFINITION. The ten register-ALU instructions (spec/46_alu_register.md R195 to R206): x[rd] <- f(x[rs1], x[rs2]). -/

namespace Sys2Proof.Machine

/-- ADD (R196). -/
def execAdd (rd rs1 rs2 : Reg) (s : State) : Result :=
  s.writeBack rd (aluAdd (s.readReg rs1) (s.readReg rs2))

/-- SUB (R197). -/
def execSub (rd rs1 rs2 : Reg) (s : State) : Result :=
  s.writeBack rd (aluSub (s.readReg rs1) (s.readReg rs2))

/-- SLL (R198). -/
def execSll (rd rs1 rs2 : Reg) (s : State) : Result :=
  s.writeBack rd (aluSll (s.readReg rs1) (shiftAmount (s.readReg rs2)))

/-- SLT (R199). -/
def execSlt (rd rs1 rs2 : Reg) (s : State) : Result :=
  s.writeBack rd (aluSlt (s.readReg rs1) (s.readReg rs2))

/-- SLTU (R200). -/
def execSltu (rd rs1 rs2 : Reg) (s : State) : Result :=
  s.writeBack rd (aluSltu (s.readReg rs1) (s.readReg rs2))

/-- XOR (R201). -/
def execXor (rd rs1 rs2 : Reg) (s : State) : Result :=
  s.writeBack rd (aluXor (s.readReg rs1) (s.readReg rs2))

/-- SRL (R202). -/
def execSrl (rd rs1 rs2 : Reg) (s : State) : Result :=
  s.writeBack rd (aluSrl (s.readReg rs1) (shiftAmount (s.readReg rs2)))

/-- SRA (R203). -/
def execSra (rd rs1 rs2 : Reg) (s : State) : Result :=
  s.writeBack rd (aluSra (s.readReg rs1) (shiftAmount (s.readReg rs2)))

/-- OR (R204). -/
def execOr (rd rs1 rs2 : Reg) (s : State) : Result :=
  s.writeBack rd (aluOr (s.readReg rs1) (s.readReg rs2))

/-- AND (R205). -/
def execAnd (rd rs1 rs2 : Reg) (s : State) : Result :=
  s.writeBack rd (aluAnd (s.readReg rs1) (s.readReg rs2))

end Sys2Proof.Machine
end

