-- ==== Sys2Proof/Machine/Branches.lean ====
section
/-! DEFINITION. The six conditional branches (spec/42_branches.md R150 to R156). -/

namespace Sys2Proof.Machine

/-- BEQ (R151). -/
def execBeq (rs1 rs2 : Reg) (offset : BitVec 13) (s : State) : Result :=
  s.branch (isEq (s.readReg rs1) (s.readReg rs2)) (value13 offset)

/-- BNE (R152). -/
def execBne (rs1 rs2 : Reg) (offset : BitVec 13) (s : State) : Result :=
  s.branch (isNe (s.readReg rs1) (s.readReg rs2)) (value13 offset)

/-- BLT (R153). -/
def execBlt (rs1 rs2 : Reg) (offset : BitVec 13) (s : State) : Result :=
  s.branch (isLt (s.readReg rs1) (s.readReg rs2)) (value13 offset)

/-- BGE (R154). -/
def execBge (rs1 rs2 : Reg) (offset : BitVec 13) (s : State) : Result :=
  s.branch (isGe (s.readReg rs1) (s.readReg rs2)) (value13 offset)

/-- BLTU (R155). -/
def execBltu (rs1 rs2 : Reg) (offset : BitVec 13) (s : State) : Result :=
  s.branch (isLtu (s.readReg rs1) (s.readReg rs2)) (value13 offset)

/-- BGEU (R156). -/
def execBgeu (rs1 rs2 : Reg) (offset : BitVec 13) (s : State) : Result :=
  s.branch (isGeu (s.readReg rs1) (s.readReg rs2)) (value13 offset)

end Sys2Proof.Machine
end

