-- ==== Sys2Proof/Machine/Jumps.lean ====
section
/-! DEFINITION. JAL and JALR (spec/41_jumps.md). -/

namespace Sys2Proof.Machine

/-- JAL (R145): x[rd] <- pc + 4; pc <- pc + imm_J. -/
def execJal (rd : Reg) (offset : BitVec 21) (s : State) : Result := s.link rd (s.pc + value21 offset)

/-- JALR (R146): the target is (x[rs1] + imm_I) & 0xFFFFFFFE with the register's value before the link is written
(log 12). -/
def execJalr (rd rs1 : Reg) (imm : BitVec 12) (s : State) : Result :=
  s.link rd ((s.readReg rs1 + value12 imm) &&& 0xFFFFFFFE#32)

end Sys2Proof.Machine
end

