-- ==== Sys2Proof/Machine/Loads.lean ====
section
/-! DEFINITION. The five loads (spec/43_loads.md R160 to R166). -/

namespace Sys2Proof.Machine

/-- LB (R161). -/
def execLb (rd rs1 : Reg) (imm : BitVec 12) (s : State) : Result :=
  s.load .one signByte rd (s.effectiveAddress rs1 imm)

/-- LH (R162). -/
def execLh (rd rs1 : Reg) (imm : BitVec 12) (s : State) : Result :=
  s.load .two signHalf rd (s.effectiveAddress rs1 imm)

/-- LW (R163). -/
def execLw (rd rs1 : Reg) (imm : BitVec 12) (s : State) : Result :=
  s.load .four wholeWord rd (s.effectiveAddress rs1 imm)

/-- LBU (R164). -/
def execLbu (rd rs1 : Reg) (imm : BitVec 12) (s : State) : Result :=
  s.load .one zeroByte rd (s.effectiveAddress rs1 imm)

/-- LHU (R165). -/
def execLhu (rd rs1 : Reg) (imm : BitVec 12) (s : State) : Result :=
  s.load .two zeroHalf rd (s.effectiveAddress rs1 imm)

end Sys2Proof.Machine
end

