-- ==== Sys2Proof/Machine/Stores.lean ====
section
/-! DEFINITION. The three stores (spec/44_stores.md R170 to R174). -/

namespace Sys2Proof.Machine

/-- SB (R171). -/
def execSb (rs1 rs2 : Reg) (imm : BitVec 12) (s : State) : Result :=
  s.store .one (s.effectiveAddress rs1 imm) (s.readReg rs2)

/-- SH (R172). -/
def execSh (rs1 rs2 : Reg) (imm : BitVec 12) (s : State) : Result :=
  s.store .two (s.effectiveAddress rs1 imm) (s.readReg rs2)

/-- SW (R173). -/
def execSw (rs1 rs2 : Reg) (imm : BitVec 12) (s : State) : Result :=
  s.store .four (s.effectiveAddress rs1 imm) (s.readReg rs2)

end Sys2Proof.Machine
end

