-- ==== Sys2Proof/Machine/UpperImmediate.lean ====
section
/-! DEFINITION. LUI and AUIPC (spec/40_upper_immediate.md). -/

namespace Sys2Proof.Machine

/-- LUI (R140): x[rd] <- imm_U. -/
def execLui (rd : Reg) (imm : BitVec 20) (s : State) : Result := s.writeBack rd (valueU imm)

/-- AUIPC (R141): x[rd] <- pc + imm_U, pc being the address of the AUIPC itself. -/
def execAuipc (rd : Reg) (imm : BitVec 20) (s : State) : Result := s.writeBack rd (s.pc + valueU imm)

end Sys2Proof.Machine
end

