-- ==== Sys2Proof/Machine/Cycle.lean ====
section
/-! DEFINITION. One instruction cycle: fetch, decode, execute, and what the loop does around the engine
(48_fetch_execute_loop.md R220 to R225). -/

namespace Sys2Proof.Machine

/-- What the loop does after a completed instruction: sim_time advances by CYCLE_TIME (R230) and the event of the
operation is emitted (R231). -/
def State.completeCycle (s : State) (op : Tag) : State :=
  { s with simTime := s.simTime + s.cfg.cycleTime, telemetry := s.telemetry ++ [.executed op] }

/-- The end of a cycle: an instruction that faulted abandoned its cycle, so neither CYCLE_TIME nor a completion
event follows (R220, R225; log 16). -/
def State.endCycle (s : State) (op : Tag) : State :=
  match s.loopState with
  | .running => s.completeCycle op
  | .faulted => s
  | .halted => s

/-- The engine's answer taken by the loop. -/
def finishCycle (op : Tag) : Result → Result
  | .next s => .next (s.endCycle op)
  | .fault f => .fault f
  | .refused r => .refused r

/-- One cycle of a running loop (R220): "any raise abandons the cycle at that point". The phases run in order and
the first to fault ends the cycle (60_exceptions.md R248). -/
def State.cycle (s : State) : Result :=
  match s.fetch with
  | (t, .error f) => .next (t.takeFault f)
  | (t, .ok inst) =>
    match decode inst with
    | .unrecognized _ => .next (t.takeFault (faultOfUnrecognized t.pc inst))
    | .instr i => finishCycle i.tag (exec i t)

/-- "If stop_requested = 1 and loop_state = Running then loop_state <- Halted and the cycle is not started"
(R228). The latch keeps its value (log 15). -/
def State.halt (s : State) : State := { s with loopState := .halted }

/-- One step of the loop (R229): a terminal state stays as it is. -/
def State.loop (s : State) : Result :=
  match s.loopState with
  | .running => if s.stopRequested then .next s.halt else s.cycle
  | .faulted => .next s
  | .halted => .next s

/-- The bytes of a word stored at pc, where the next fetch reads (20_memory.md R84). -/
def State.placeAtPc (s : State) (w : Word) : State := { s with mem := s.mem.write s.pc.toNat w .four }

end Sys2Proof.Machine
end

