-- ==== Sys2Proof/Machine/Step.lean ====
section
/-! DEFINITION. The step of the machine. -/

namespace Sys2Proof.Machine

/-- One step of the fetch-execute loop (48_fetch_execute_loop.md R220, R228, R229). -/
def step (s : State) : Host.Outcome State Fault Refusal := s.loop

/-- The state with the instruction `w` of the opcode table's numbering stored where the next fetch reads. Nothing
else is needed: a running loop without a stop request fetches at pc (log 3). -/
def State.withFetchWord (s : State) (nbits w : Nat) : State := s.placeAtPc (BitVec.ofNat 32 (w % 2 ^ nbits))

end Sys2Proof.Machine
end

