-- ==== Sys2Proof/Machine/HostPort.lean ====
section
/-! DEFINITION. What the host can do: the loader feed before the first cycle, and the moves between two cycles
(20_memory.md R74, R77, R78, R81; 60_exceptions.md R255 to R259). -/

namespace Sys2Proof.Machine

/-! ### The loader feed (20_memory.md R74; log 11) -/

/-- A loader record: an address and its bytes. -/
structure Record where
  addr : Nat
  bytes : List Byte
  deriving DecidableEq, Repr

/-- mem[a + i] <- b[i]. -/
def Memory.writeBytes (m : Memory) (a : Nat) : List Byte → Memory
  | [] => m
  | b :: bs => Memory.writeBytes (m.set a b) (a + 1) bs

/-- "Records are applied in the order of the sequence"; one that does not fit in [0, MEM_SIZE) makes the launch
refused. -/
def State.loadImage (s : State) : List Record → Result
  | [] => .next s
  | r :: rs =>
    if r.addr + r.bytes.length ≤ s.cfg.memSize then
      State.loadImage { s with mem := s.mem.writeBytes r.addr r.bytes } rs
    else .refused (.loaderRecord r.addr r.bytes.length)

/-- Reset, then the loader feed over whatever the memory held, then the loop may start (70_reset_and_hazards.md
R272). -/
def launch (cfg : Config) (prior : Memory) (records : List Record) : Result :=
  (State.resetWith cfg prior).loadImage records

/-! ### Host moves -/

/-- One act of the host between two cycles. Lengths and indexes are plain numbers, as the host gives them. -/
inductive HostMove
  /-- The stop request (60_exceptions.md R255). -/
  | requestStop
  /-- `debug_access(address, length, read)` (20_memory.md R77). -/
  | debugRead (addr : Word) (length : Nat)
  /-- `debug_access(address, length, write, data)`. -/
  | debugWrite (addr : Word) (length : Nat) (data : Word)
  /-- `read(index)` (10_state.md R33). -/
  | readRegister (index : Nat)
  /-- `write(index, value)`. -/
  | writeRegister (index : Nat) (value : Word)
  /-- `read_pc()`. -/
  | readPc
  /-- `write_pc(value)`. -/
  | writePc (value : Word)
  /-- Invalidation of an outstanding grant (20_memory.md R81). -/
  | invalidateGrant
  deriving DecidableEq, Repr

/-- What the host is answered. -/
inductive HostAnswer
  | done
  | value (v : Word)
  /-- "A failing debug access returns its error to the debug caller; it does not fault the core" (R77). -/
  | outOfBounds
  deriving DecidableEq, Repr

/-- A move's answer and the state after it, or its refusal. -/
inductive HostResult
  | answered (a : HostAnswer) (s : State)
  | refused (r : Refusal)
  deriving DecidableEq, Repr

/-- The transaction of a length in bytes (20_memory.md R66). -/
def Len.ofNat? : Nat → Option Len
  | 1 => some .one
  | 2 => some .two
  | 4 => some .four
  | _ => none

/-- The latch is set in Running; "a request in a terminal state is ignored" (decision D17; log 14). -/
def State.requestStop (s : State) : State :=
  match s.loopState with
  | .running => { s with stopRequested := true }
  | .faulted => s
  | .halted => s

/-- The validity flag cleared; the backing store is not touched (20_memory.md R81). -/
def State.invalidateGrant (s : State) : State :=
  { s with grant := s.grant.map (fun g => { g with valid := false }) }

/-- Debug read: "identical semantics to the timed transaction but contributes no simulated time" (R77). -/
def State.debugRead (s : State) (a : Word) (n : Len) : HostResult :=
  match s.readAccess a n with
  | some v => .answered (.value v) s
  | none => .answered .outOfBounds s

/-- Debug write (R77, R78). -/
def State.debugWrite (s : State) (a : Word) (n : Len) (v : Word) : HostResult :=
  match s.writeAccess a n v with
  | some t => .answered .done t
  | none => .answered .outOfBounds s

/-- A host move. A debug access of another length, or of a register index above 31, is refused
(93_implementation_defined.md U9, U10). -/
def HostMove.apply : HostMove → State → HostResult
  | .requestStop, s => .answered .done s.requestStop
  | .debugRead a length, s =>
    match Len.ofNat? length with
    | some n => s.debugRead a n
    | none => .refused (.accessLength length)
  | .debugWrite a length v, s =>
    match Len.ofNat? length with
    | some n => s.debugWrite a n v
    | none => .refused (.accessLength length)
  | .readRegister index, s =>
    if index < 32 then .answered (.value (s.readReg (BitVec.ofNat 5 index))) s else .refused (.registerIndex index)
  | .writeRegister index v, s =>
    if index < 32 then .answered .done (s.writeReg (BitVec.ofNat 5 index) v) else .refused (.registerIndex index)
  | .readPc, s => .answered (.value s.pc) s
  | .writePc v, s => .answered .done (s.redirect v)
  | .invalidateGrant, s => .answered .done s.invalidateGrant

/-! ### Runs with the host (00_scope.md R21) -/

/-- Who acts next: the core, one cycle, or the host. -/
inductive Move
  | cycle
  | host (m : HostMove)
  deriving DecidableEq, Repr

def Move.apply : Move → State → Result
  | .cycle, s => step s
  | .host m, s =>
    match m.apply s with
    | .answered _ t => .next t
    | .refused r => .refused r

/-- The moves of a run in order, ended by the first refusal. -/
def runMoves : List Move → State → Result
  | [], s => .next s
  | m :: ms, s =>
    match m.apply s with
    | .next t => runMoves ms t
    | .fault f => .fault f
    | .refused r => .refused r

end Sys2Proof.Machine
end

