-- ==== Sys2Proof/Safety.lean ====
section
/-! DEFINITION. The terms statements are made in: the invariant of the machine, frames, what an instruction names, and
when two states or two runs look alike to a program. -/

namespace Sys2Proof

/-! ### What an instruction names (10_state.md R35) -/

/-- The register the instruction writes, if it has a destination. -/
def Instr.dest : Instr → Option Reg
  | .lui rd _ | .auipc rd _ | .jal rd _ | .jalr rd _ _ => some rd
  | .beq .. | .bne .. | .blt .. | .bge .. | .bltu .. | .bgeu .. => none
  | .lb rd _ _ | .lh rd _ _ | .lw rd _ _ | .lbu rd _ _ | .lhu rd _ _ => some rd
  | .sb .. | .sh .. | .sw .. => none
  | .addi rd _ _ | .slti rd _ _ | .sltiu rd _ _ | .xori rd _ _ | .ori rd _ _ | .andi rd _ _ => some rd
  | .slli rd _ _ | .srli rd _ _ | .srai rd _ _ => some rd
  | .add rd _ _ | .sub rd _ _ | .sll rd _ _ | .slt rd _ _ | .sltu rd _ _ => some rd
  | .xor rd _ _ | .srl rd _ _ | .sra rd _ _ | .or rd _ _ | .and rd _ _ => some rd

/-- The registers the instruction reads. -/
def Instr.sources : Instr → List Reg
  | .lui .. | .auipc .. | .jal .. => []
  | .jalr _ rs1 _ => [rs1]
  | .beq rs1 rs2 _ | .bne rs1 rs2 _ | .blt rs1 rs2 _ | .bge rs1 rs2 _ | .bltu rs1 rs2 _ | .bgeu rs1 rs2 _ => [rs1, rs2]
  | .lb _ rs1 _ | .lh _ rs1 _ | .lw _ rs1 _ | .lbu _ rs1 _ | .lhu _ rs1 _ => [rs1]
  | .sb rs1 rs2 _ | .sh rs1 rs2 _ | .sw rs1 rs2 _ => [rs1, rs2]
  | .addi _ rs1 _ | .slti _ rs1 _ | .sltiu _ rs1 _ | .xori _ rs1 _ | .ori _ rs1 _ | .andi _ rs1 _ => [rs1]
  | .slli _ rs1 _ | .srli _ rs1 _ | .srai _ rs1 _ => [rs1]
  | .add _ rs1 rs2 | .sub _ rs1 rs2 | .sll _ rs1 rs2 | .slt _ rs1 rs2 | .sltu _ rs1 rs2 => [rs1, rs2]
  | .xor _ rs1 rs2 | .srl _ rs1 rs2 | .sra _ rs1 rs2 | .or _ rs1 rs2 | .and _ rs1 rs2 => [rs1, rs2]

end Sys2Proof

namespace Sys2Proof.Machine

/-- The one data access of an instruction: direction, length, base register and displacement (20_memory.md R76). -/
structure DataAccess where
  dir : Direction
  len : Len
  base : Reg
  disp : BitVec 12
  deriving DecidableEq, Repr

/-- The data access an instruction makes: one for a load or a store, none for every other instruction. -/
def dataAccess : Instr → Option DataAccess
  | .lb _ rs1 imm | .lbu _ rs1 imm => some ⟨.read, .one, rs1, imm⟩
  | .lh _ rs1 imm | .lhu _ rs1 imm => some ⟨.read, .two, rs1, imm⟩
  | .lw _ rs1 imm => some ⟨.read, .four, rs1, imm⟩
  | .sb rs1 _ imm => some ⟨.write, .one, rs1, imm⟩
  | .sh rs1 _ imm => some ⟨.write, .two, rs1, imm⟩
  | .sw rs1 _ imm => some ⟨.write, .four, rs1, imm⟩
  | .lui .. | .auipc .. | .jal .. | .jalr .. => none
  | .beq .. | .bne .. | .blt .. | .bge .. | .bltu .. | .bgeu .. => none
  | .addi .. | .slti .. | .sltiu .. | .xori .. | .ori .. | .andi .. | .slli .. | .srli .. | .srai .. => none
  | .add .. | .sub .. | .sll .. | .slt .. | .sltu .. | .xor .. | .srl .. | .sra .. | .or .. | .and .. => none

/-! ### The invariant -/

/-- The window of a grant lies inside the memory (20_memory.md R80). -/
abbrev Grant.inside (g : Grant) (memSize : Nat) : Prop := g.first ≤ g.last ∧ g.last < memSize

/-- The invariant of the machine: the parameters in the range R8 gives them, the memory canonical and inside
[0, MEM_SIZE), a held grant's window inside the memory, and a fault record present exactly in Faulted (10_state.md
R43). -/
abbrev State.Inv (s : State) : Prop :=
  s.cfg.valid ∧ s.mem.wf ∧ (∀ c ∈ s.mem, c.1 < s.cfg.memSize) ∧ (∀ g ∈ s.grant, g.inside s.cfg.memSize) ∧
    (s.loopState = .faulted ↔ s.faultInfo.isSome = true)

/-! ### Frames -/

/-- No register changes. -/
abbrev State.SameRegs (s t : State) : Prop := ∀ r, t.readReg r = s.readReg r

/-- Register rd takes the value, unless it is x0; no other register changes. -/
abbrev State.OnlyReg (s t : State) (rd : Reg) (v : Word) : Prop :=
  ∀ r, t.readReg r = if r = rd ∧ rd ≠ 0#5 then v else s.readReg r

/-- No byte of memory changes. -/
abbrev State.SameMemory (s t : State) : Prop := ∀ a, t.mem.byte a = s.mem.byte a

/-- The n bytes from an address take the low n bytes of a value, least significant first; no other byte changes. -/
abbrev State.OnlyBytes (s t : State) (ea : Word) (n : Len) (v : Word) : Prop :=
  ∀ a, t.mem.byte a =
    if ea.toNat ≤ a ∧ a < ea.toNat + n.bytes then v.extractLsb' (8 * (a - ea.toNat)) 8 else s.mem.byte a

/-- No hidden item changes but sim_time: loop_state, fault_info, stop_requested, the grant and the coming choices of
the fetch path, the events emitted, the parameters. -/
abbrev State.SameHidden (s t : State) : Prop :=
  t.loopState = s.loopState ∧ t.faultInfo = s.faultInfo ∧ t.stopRequested = s.stopRequested ∧ t.grant = s.grant ∧
    t.grantRequests = s.grantRequests ∧ t.telemetry = s.telemetry ∧ t.cfg = s.cfg

/-- The whole effect of a computing instruction: x[rd] <- v; pc <- pc + 4. -/
abbrev State.Computes (s t : State) (rd : Reg) (v : Word) : Prop :=
  s.OnlyReg t rd v ∧ t.pc = s.pc + 4 ∧ s.SameMemory t ∧ s.SameHidden t ∧ t.simTime = s.simTime

/-- The whole effect of a jump: x[rd] <- pc + 4; pc <- target. -/
abbrev State.Jumps (s t : State) (rd : Reg) (target : Word) : Prop :=
  s.OnlyReg t rd (s.pc + 4) ∧ t.pc = target ∧ s.SameMemory t ∧ s.SameHidden t ∧ t.simTime = s.simTime

/-- The whole effect of a branch: pc <- target. -/
abbrev State.GoesTo (s t : State) (target : Word) : Prop :=
  s.SameRegs t ∧ t.pc = target ∧ s.SameMemory t ∧ s.SameHidden t ∧ t.simTime = s.simTime

/-- The whole effect of a load in bounds: x[rd] <- v; pc <- pc + 4; one timed transaction. -/
abbrev State.Loads (s t : State) (rd : Reg) (v : Word) : Prop :=
  s.OnlyReg t rd v ∧ t.pc = s.pc + 4 ∧ s.SameMemory t ∧ s.SameHidden t ∧ t.simTime = s.simTime + s.cfg.accessLatency

/-- The whole effect of a store in bounds: n bytes at ea; pc <- pc + 4; one timed transaction. -/
abbrev State.Stores (s t : State) (ea : Word) (n : Len) (v : Word) : Prop :=
  s.SameRegs t ∧ t.pc = s.pc + 4 ∧ s.OnlyBytes t ea n v ∧ s.SameHidden t ∧ t.simTime = s.simTime + s.cfg.accessLatency

/-- The effect of taking a fault on everything but sim_time and the fetch path's own items: the record kept and
reported once, and no architectural write (60_exceptions.md R244, R247). -/
abbrev State.FaultsWith (s t : State) (f : Fault) : Prop :=
  s.SameRegs t ∧ t.pc = s.pc ∧ s.SameMemory t ∧ t.loopState = .faulted ∧ t.faultInfo = some f ∧
    t.telemetry = s.telemetry ++ [.faulted f] ∧ t.stopRequested = s.stopRequested ∧ t.cfg = s.cfg

/-- The fetch path's own items unchanged. -/
abbrev State.SameFetchPath (s t : State) : Prop := t.grant = s.grant ∧ t.grantRequests = s.grantRequests

/-- The pc of the faulting instruction, in every fault record (60_exceptions.md R247). -/
def Fault.atPc : Fault → Word
  | .decodeFault pc _ => pc
  | .accessFault pc _ _ _ => pc
  | .unimplementedFeature pc _ => pc
  | .invalidatedAccess pc => pc

/-! ### When a step fetches a word -/

/-- The loop will attempt a cycle (48_fetch_execute_loop.md R220). -/
abbrev State.Ready (s : State) : Prop := s.loopState = .running ∧ s.stopRequested = false

/-- The loop will attempt a cycle, and the four bytes at pc lie in memory and are those of the word. -/
abbrev State.AboutToRun (s : State) (w : Word) : Prop :=
  s.Ready ∧ s.pc.toNat + 4 ≤ s.cfg.memSize ∧ s.mem.read s.pc.toNat .four = w

/-- The fetch of the coming cycle is served by a grant (20_memory.md R82, R84). -/
def State.fetchesByGrant (s : State) : Bool := (s.renewGrant.usableGrant s.pc).isSome

/-! ### What a program or a host sees -/

/-- Two states alike but for simulated time, the grant and its choices, the events emitted and the amounts of time. -/
abbrev State.ArchEq (s t : State) : Prop :=
  s.regs = t.regs ∧ s.pc = t.pc ∧ s.mem = t.mem ∧ s.loopState = t.loopState ∧ s.faultInfo = t.faultInfo ∧
    s.stopRequested = t.stopRequested ∧ s.cfg.memSize = t.cfg.memSize

/-- A host move inside the contract that asks for no stop and writes nothing: the moves left by the premise
NO_DEBUG_WRITES when no stop request comes (20_memory.md R78). -/
def HostMove.passive : HostMove → Bool
  | .requestStop => false
  | .debugRead _ length => (Len.ofNat? length).isSome
  | .debugWrite _ _ _ => false
  | .readRegister index => decide (index < 32)
  | .writeRegister _ _ => false
  | .readPc => true
  | .writePc _ => false
  | .invalidateGrant => true

/-- The core's move, or a passive move of the host. -/
def Move.passive : Move → Bool
  | .cycle => true
  | .host m => m.passive

/-- How many of the moves are the core's. -/
def cyclesOf : List Move → Nat
  | [] => 0
  | .cycle :: ms => cyclesOf ms + 1
  | .host _ :: ms => cyclesOf ms

/-- The core alone for k steps, ended by a fault or refusal in the host's sense. -/
def runSteps : Nat → State → Result
  | 0, s => .next s
  | k + 1, s =>
    match step s with
    | .next t => runSteps k t
    | .fault f => .fault f
    | .refused r => .refused r

/-- Every record lies inside [0, MEM_SIZE) (20_memory.md R74). -/
abbrev recordsFit (memSize : Nat) (records : List Record) : Prop := ∀ r ∈ records, r.addr + r.bytes.length ≤ memSize

end Sys2Proof.Machine
end

