-- ==== Sys2Proof/Certificates/Slice0/Obligations.lean ====
section
/-! DEFINITION. The statements about the model. Each docstring names the rules of spec/ it formalises and the
decisions and log entries it rests on. -/

open Sys2Proof Sys2Proof.Machine

/-! ### Reset, launch and the invariant -/

/-- 10_state.md R50, R51, 70_reset_and_hazards.md R270, R272: what the machine holds after reset and the loader feed.
The loop state, the stop request, the grant and sim_time follow the spec's decisions D15 to D17; the empty list of
choices and of events is the model's choice (log 5, log 6). -/
def Obligations.LaunchLeavesTheResetState : Prop :=
  ∀ (cfg : Config) (prior : Memory) (records : List Record) (t : State), launch cfg prior records = .next t →
    (∀ r, t.readReg r = 0#32) ∧ t.pc = cfg.resetVector ∧ t.loopState = .running ∧ t.faultInfo = none ∧
      t.stopRequested = false ∧ t.grant = none ∧ t.simTime = 0 ∧ t.telemetry = [] ∧ t.grantRequests = [] ∧ t.cfg = cfg

/-- 20_memory.md R74 (decision D9): a launch is answered exactly when every record lies inside the memory, and each
byte is then the one the last record covering it gives, else the prior one. -/
def Obligations.LoaderAppliesRecordsInOrder : Prop :=
  ∀ (cfg : Config) (prior : Memory) (records : List Record),
    ((∃ t, launch cfg prior records = .next t) ↔ recordsFit cfg.memSize records) ∧
      ∀ t, launch cfg prior records = .next t → ∀ a,
        t.mem.byte a = records.foldl (fun b r => if r.addr ≤ a then r.bytes.getD (a - r.addr) b else b) (prior.byte a)

/-- The invariant (00_scope.md R8, 10_state.md R43, 20_memory.md R60, R80) holds after reset, and after every launch
on a canonical image. The parameters of `State.reset` are the model's choice (log 1). -/
def Obligations.ResetMeetsTheInvariant : Prop :=
  State.reset.Inv ∧
    ∀ (cfg : Config) (prior : Memory) (records : List Record) (t : State), cfg.valid → prior.wf →
      (∀ c ∈ prior, c.1 < cfg.memSize) → launch cfg prior records = .next t → t.Inv

/-- Every step keeps the invariant. -/
def Obligations.StepKeepsTheInvariant : Prop := ∀ s t : State, s.Inv → step s = .next t → t.Inv

/-- Every answered host move keeps the invariant (20_memory.md R77, R81; 60_exceptions.md R255, R256). -/
def Obligations.HostMovesKeepTheInvariant : Prop :=
  ∀ (m : HostMove) (s t : State) (a : HostAnswer), s.Inv → m.apply s = .answered a t → t.Inv

/-! ### Encoding -/

/-- 30_encoding.md R103, R127, R130: decoding the canonical word of a well-formed instruction gives the instruction
back, with every operand, from a word and from the bytes memory holds. -/
def Obligations.DecodeOfEncodeIsTheInstruction : Prop :=
  ∀ i : Instr, i.wf = true →
    decode (encode i) = .instr i ∧ ∀ rest, decodeBytes (encodeBytes i ++ rest) = (.instr i, rest)

/-- 30_encoding.md R127: on the canonical words of the opcode table the encoder undoes the decoder. -/
def Obligations.EncodeOfDecodeIsTheCanonicalWord : Prop :=
  ∀ row ∈ opcodeTable, ∀ w, row.canonical w = true →
    ∃ i, decode w = .instr i ∧ i.tag = row.tag ∧ i.wf = true ∧ encode i = w

/-- 30_encoding.md R113, R126, R131: the masks and matches of opcode_table.json and the decoder say the same. Each
row's words decode to a well-formed instruction of that row's operation, every recognized word is some row's, and no
word is two rows'. -/
def Obligations.OpcodeTableIsTheDecoder : Prop :=
  (∀ row ∈ opcodeTable, ∀ w, row.selects w = true → ∃ i, decode w = .instr i ∧ i.tag = row.tag ∧ i.wf = true) ∧
    (∀ w i, decode w = .instr i → ∃ row ∈ opcodeTable, row.selects w = true ∧ row.tag = i.tag) ∧
      ∀ row ∈ opcodeTable, ∀ row' ∈ opcodeTable, ∀ w, row.selects w = true → row'.selects w = true → row = row'

/-- 30_encoding.md R122: the complete space of unrecognized words, by its four cases. -/
def Obligations.UnrecognizedWordsAreTheFourCases : Prop :=
  ∀ w : Word, (∃ why, decode w = .unrecognized why) ↔
    opcodeOf w ∉ [0x37#7, 0x17#7, 0x6F#7, 0x67#7, 0x63#7, 0x03#7, 0x23#7, 0x13#7, 0x33#7] ∨
      (opcodeOf w = 0x63#7 ∧ (funct3Of w = 0b010#3 ∨ funct3Of w = 0b011#3)) ∨
      (opcodeOf w = 0x03#7 ∧ (funct3Of w = 0b011#3 ∨ funct3Of w = 0b110#3 ∨ funct3Of w = 0b111#3)) ∨
      (opcodeOf w = 0x23#7 ∧ 3 ≤ (funct3Of w).toNat)

/-- 30_encoding.md R120: the bits the decoder does not examine. In the register-ALU words and the shift-immediate
words funct7 matters only through its bit 5, and that only for funct3 000 (register-ALU) and 101; in JALR funct3 does
not matter. -/
def Obligations.IgnoredBitsChangeNothing : Prop :=
  (∀ (f7 f7' : BitVec 7) (rs2 rs1 rd : Reg) (f3 : BitVec 3),
      (f3 = 0b000#3 ∨ f3 = 0b101#3 → f7.getLsbD 5 = f7'.getLsbD 5) →
        decode (encodeR f7 rs2 rs1 f3 rd 0x33#7) = decode (encodeR f7' rs2 rs1 f3 rd 0x33#7)) ∧
    (∀ (f7 f7' : BitVec 7) (shamt rs1 rd : Reg) (f3 : BitVec 3),
      f3 = 0b001#3 ∨ (f3 = 0b101#3 ∧ f7.getLsbD 5 = f7'.getLsbD 5) →
        decode (encodeR f7 shamt rs1 f3 rd 0x13#7) = decode (encodeR f7' shamt rs1 f3 rd 0x13#7)) ∧
      ∀ (imm : BitVec 12) (rs1 rd : Reg) (f3 f3' : BitVec 3),
        decode (encodeI imm rs1 f3 rd 0x67#7) = decode (encodeI imm rs1 f3' rd 0x67#7)

/-- Words printed in the spec, at least one of each family, decode to the instructions they stand for
(40_upper_immediate.md to 46_alu_register.md, the rules' examples). -/
def Obligations.SpecWordsDecode : Prop :=
  decode 0x89ABD0B7#32 = .instr (.lui 1 0x89ABD) ∧ decode 0x00001297#32 = .instr (.auipc 5 1) ∧
    decode 0x00C000EF#32 = .instr (.jal 1 12) ∧ decode 0xFFD280E7#32 = .instr (.jalr 1 5 (-3)) ∧
    decode 0xFE011CE3#32 = .instr (.bne 2 0 (-8)) ∧ decode 0x00112403#32 = .instr (.lw 8 2 1) ∧
    decode 0x001102A3#32 = .instr (.sb 2 1 5) ∧ decode 0xFFF10113#32 = .instr (.addi 2 2 (-1)) ∧
    decode 0x40255593#32 = .instr (.srai 11 10 2) ∧ decode 0x00B03633#32 = .instr (.sltu 12 0 11) ∧
    decode 0x407352B3#32 = .instr (.sra 5 6 7)

/-- 30_encoding.md R101: each accessor reads its bits of the word. -/
def Obligations.FieldsAreTheWordsBits : Prop :=
  ∀ (w : Word) (k : Nat),
    (opcodeOf w).getLsbD k = (decide (k < 7) && w.getLsbD k) ∧ (rdOf w).getLsbD k = (decide (k < 5) && w.getLsbD (7 + k)) ∧
      (funct3Of w).getLsbD k = (decide (k < 3) && w.getLsbD (12 + k)) ∧
      (rs1Of w).getLsbD k = (decide (k < 5) && w.getLsbD (15 + k)) ∧
      (rs2Of w).getLsbD k = (decide (k < 5) && w.getLsbD (20 + k)) ∧
      (funct7Of w).getLsbD k = (decide (k < 7) && w.getLsbD (25 + k)) ∧ inst30Of w = (funct7Of w).getLsbD 5

/-- 30_encoding.md R105 to R110: where every bit of the five immediates comes from, and their ranges. -/
def Obligations.ImmediatesPlaceTheirBits : Prop :=
  ∀ w : Word,
    (∀ k < 32, (immI w).getLsbD k = if k < 11 then w.getLsbD (k + 20) else w.getLsbD 31) ∧
    (∀ k < 32, (immS w).getLsbD k =
      if k < 5 then w.getLsbD (k + 7) else if k < 11 then w.getLsbD (k + 20) else w.getLsbD 31) ∧
    (∀ k < 32, (immU w).getLsbD k = if k < 12 then false else w.getLsbD k) ∧
    (∀ k < 32, (immB w).getLsbD k =
      if k = 0 then false else if k < 5 then w.getLsbD (k + 7) else if k < 11 then w.getLsbD (k + 20)
      else if k = 11 then w.getLsbD 7 else w.getLsbD 31) ∧
    (∀ k < 32, (immJ w).getLsbD k =
      if k = 0 then false else if k < 11 then w.getLsbD (k + 20) else if k = 11 then w.getLsbD 20
      else if k < 20 then w.getLsbD k else w.getLsbD 31) ∧
    (-2048 ≤ (immI w).toInt ∧ (immI w).toInt ≤ 2047) ∧ (-2048 ≤ (immS w).toInt ∧ (immS w).toInt ≤ 2047) ∧
    immU w = w &&& 0xFFFFF000#32 ∧ (-4096 ≤ (immB w).toInt ∧ (immB w).toInt ≤ 4094) ∧
    (-1048576 ≤ (immJ w).toInt ∧ (immJ w).toInt ≤ 1048574)

/-! ### Registers -/

/-- 10_state.md R33: the four operations of the register file, as the host's channel uses them. A read changes
nothing, a write to x1 to x31 replaces all 32 bits of that register and nothing else, and pc is read and written
whole; a write to x0 changes nothing and x0 reads 0. -/
def Obligations.RegisterFileContract : Prop :=
  ∀ (s : State) (v : Word),
    (∀ index, index < 32 → (HostMove.readRegister index).apply s = .answered (.value (s.readReg (BitVec.ofNat 5 index))) s) ∧
    (∀ index, 0 < index → index < 32 → ∃ t, (HostMove.writeRegister index v).apply s = .answered .done t ∧
      (HostMove.readRegister index).apply t = .answered (.value v) t ∧
      (∀ r, r ≠ BitVec.ofNat 5 index → t.readReg r = s.readReg r) ∧ t.pc = s.pc ∧ t.mem = s.mem ∧ s.SameHidden t ∧
      t.simTime = s.simTime) ∧
    (HostMove.writeRegister 0 v).apply s = .answered .done s ∧ (HostMove.readRegister 0).apply s = .answered (.value 0#32) s ∧
    HostMove.readPc.apply s = .answered (.value s.pc) s ∧
    ∃ t, (HostMove.writePc v).apply s = .answered .done t ∧ HostMove.readPc.apply t = .answered (.value v) t ∧
      s.SameRegs t ∧ t.mem = s.mem ∧ s.SameHidden t ∧ t.simTime = s.simTime

/-- 10_state.md R35, 30_encoding.md R123 (decision D20): an instruction changes no register but its destination, never
x0, and one without a destination changes none. -/
def Obligations.OnlyTheDestinationChanges : Prop :=
  ∀ (i : Instr) (s t : State) (r : Reg), exec i s = .next t → t.readReg r ≠ s.readReg r → i.dest = some r ∧ r ≠ 0#5

/-- 10_state.md R35, 20_memory.md R76: what an instruction does depends on the registers its word names as sources, on
pc, on the memory and its size, and on nothing else. From two states alike in these, both end alike in pc, memory and
fault record, and each register that changes in one ends with the same value in the other, or is left as it was in
both. -/
def Obligations.OnlyNamedSourcesAreRead : Prop :=
  ∀ (i : Instr) (s s' t t' : State), (∀ r ∈ i.sources, s.readReg r = s'.readReg r) → s.pc = s'.pc → s.mem = s'.mem →
    s.cfg.memSize = s'.cfg.memSize → s.loopState = s'.loopState → s.faultInfo = s'.faultInfo →
    exec i s = .next t → exec i s' = .next t' →
      t.pc = t'.pc ∧ t.mem = t'.mem ∧ t.loopState = t'.loopState ∧ t.faultInfo = t'.faultInfo ∧
        ∀ r, t.readReg r = t'.readReg r ∨ (t.readReg r = s.readReg r ∧ t'.readReg r = s'.readReg r)

/-! ### Memory -/

/-- 20_memory.md R67, R68, R73 (decision D1): a timed write in bounds sets exactly the n bytes, least significant
first, and a timed read in bounds answers the n bytes of its region, each in its place, and changes no byte. -/
def Obligations.AccessesMoveTheirBytes : Prop :=
  ∀ (s : State) (a : Word) (n : Len) (v : Word), a.toNat + n.bytes ≤ s.cfg.memSize →
    (∃ t, s.timedWrite a n v = (t, none) ∧ s.OnlyBytes t a n v ∧ s.SameRegs t ∧ t.pc = s.pc ∧ s.SameHidden t) ∧
    ∃ t u, s.timedRead a n = (t, .ok u) ∧ s.SameMemory t ∧ s.SameRegs t ∧ t.pc = s.pc ∧ s.SameHidden t ∧
      ∀ k < 32, u.getLsbD k = (decide (k < 8 * n.bytes) && (s.mem.byte (a.toNat + k / 8)).getLsbD (k % 8))

/-- 20_memory.md R71: a write in bounds through the timed or the debug mode, then a read of the same region through
the timed mode, the debug mode or (a word) a valid grant returns the data. -/
def Obligations.WriteThenReadReturnsTheData : Prop :=
  ∀ (s : State) (a : Word) (n : Len) (v : Word), a.toNat + n.bytes ≤ s.cfg.memSize → v.toNat < 2 ^ (8 * n.bytes) →
    ∀ t, (s.timedWrite a n v = (t, none) ∨ s.debugWrite a n v = .answered .done t) →
      (t.timedRead a n).2 = .ok v ∧ t.debugRead a n = .answered (.value v) t ∧
        ∀ g : Grant, n = .four → g.valid = true → t.grantRead g a = .ok v

/-- 20_memory.md R69 (decision D5): in every access mode the bounds check is the whole condition, with the sum taken
in unbounded numbers. -/
def Obligations.BoundsCheckIsTheOnlyCondition : Prop :=
  ∀ (s : State) (a : Word) (n : Len) (v : Word),
    ((∃ u, (s.timedRead a n).2 = .ok u) ↔ a.toNat + n.bytes ≤ s.cfg.memSize) ∧
    ((s.timedWrite a n v).2 = none ↔ a.toNat + n.bytes ≤ s.cfg.memSize) ∧
    ((∃ u, s.debugRead a n = .answered (.value u) s) ↔ a.toNat + n.bytes ≤ s.cfg.memSize) ∧
    ((∃ t, s.debugWrite a n v = .answered .done t) ↔ a.toNat + n.bytes ≤ s.cfg.memSize) ∧
    ((∃ u, s.fetch.2 = .ok u) ↔ s.pc.toNat + 4 ≤ s.cfg.memSize)

/-- 20_memory.md R70, 60_exceptions.md R242 (decisions D11, D23): a failing access leaves the store unmodified, returns
no data, and becomes an AccessFault of the caller. -/
def Obligations.FailingAccessLeavesTheStore : Prop :=
  ∀ (s : State) (a : Word) (n : Len) (v : Word), s.cfg.memSize < a.toNat + n.bytes →
    (∃ t, s.timedRead a n = (t, .error (.accessFault s.pc a n .read)) ∧ t.mem = s.mem) ∧
    (∃ t, s.timedWrite a n v = (t, some (.accessFault s.pc a n .write)) ∧ t.mem = s.mem) ∧
    s.debugRead a n = .answered .outOfBounds s ∧ s.debugWrite a n v = .answered .outOfBounds s ∧
    (a = s.pc → n = .four → s.fetch.2 = .error (.accessFault s.pc a n .read) ∧ s.fetch.1.mem = s.mem) ∧
    ∀ (i : Instr) (d : DataAccess), dataAccess i = some d → a = s.effectiveAddress d.base d.disp → n = d.len →
      ∃ t, exec i s = .next t ∧ t.faultInfo = some (.accessFault s.pc a n d.dir) ∧ t.mem = s.mem ∧ s.SameRegs t

/-- 20_memory.md R77 (decision D18): a debug access of length 1, 2 or 4 answers what the timed transaction answers and
leaves the memory it leaves, adds no simulated time, and faults nothing; another length, and a register index above 31,
is refused (93_implementation_defined.md U9, U10). -/
def Obligations.DebugAccessIsATimedAccessWithoutTime : Prop :=
  ∀ (s : State) (a : Word) (n : Len) (v : Word),
    (HostMove.debugRead a n.bytes).apply s =
      .answered (match (s.timedRead a n).2 with | .ok u => .value u | .error _ => .outOfBounds) s ∧
    (∃ t, (HostMove.debugWrite a n.bytes v).apply s =
        .answered (match (s.timedWrite a n v).2 with | none => .done | some _ => .outOfBounds) t ∧
      t = { s with mem := (s.timedWrite a n v).1.mem }) ∧
    (∀ length, length ∉ [1, 2, 4] → (HostMove.debugRead a length).apply s = .refused (.accessLength length) ∧
      (HostMove.debugWrite a length v).apply s = .refused (.accessLength length)) ∧
    ∀ index, 31 < index → (HostMove.readRegister index).apply s = .refused (.registerIndex index) ∧
      (HostMove.writeRegister index v).apply s = .refused (.registerIndex index)

/-- 20_memory.md R73 (decision D1): the mixed-width view. After a word is written, its bytes and halfwords read as
the word's slices; after four bytes are written, the word reads as their concatenation. -/
def Obligations.MixedWidthView : Prop :=
  ∀ (m : Memory) (a : Nat) (v : Word) (b0 b1 b2 b3 : Byte),
    (m.write a v .four).read a .two = (v.extractLsb' 0 16).setWidth 32 ∧
    (m.write a v .four).read (a + 2) .two = (v.extractLsb' 16 16).setWidth 32 ∧
    (m.write a v .four).read (a + 1) .two = (v.extractLsb' 8 16).setWidth 32 ∧
    (∀ i < 4, (m.write a v .four).read (a + i) .one = (v.extractLsb' (8 * i) 8).setWidth 32) ∧
    ((((m.set a b0).set (a + 1) b1).set (a + 2) b2).set (a + 3) b3).read a .four = b3 ++ b2 ++ b1 ++ b0

/-- 20_memory.md R84, R65, R85 (decisions D1, D3): the fetch answers the four bytes at pc, or an AccessFault exactly
when they do not all lie in memory, whichever path serves it and whatever pc's low bits; it changes nothing but the
grant, the coming choices and sim_time, and sim_time only when it is not served by a grant. -/
def Obligations.FetchIsTheSameByEitherPath : Prop :=
  ∀ s : State,
    s.fetch.2 = (if s.pc.toNat + 4 ≤ s.cfg.memSize then .ok (s.mem.read s.pc.toNat .four)
      else .error (.accessFault s.pc s.pc .four .read)) ∧
    s.fetch.1 = { s with
      grant := s.fetch.1.grant, grantRequests := s.fetch.1.grantRequests,
      simTime := s.simTime + if s.fetchesByGrant then 0 else s.cfg.accessLatency }

/-- 20_memory.md R83: a read through a valid grant returns, at every address of its window and at every moment,
exactly what a timed read returns; so also after any instruction. -/
def Obligations.GrantReadsTheBackingStore : Prop :=
  ∀ (s : State) (g : Grant) (a : Word), g.covers a = true →
    s.grantRead g a = (s.timedRead a .four).2 ∧
      ∀ (i : Instr) (t : State), exec i s = .next t → t.grantRead g a = if a.toNat + 4 ≤ s.cfg.memSize
        then .ok (t.mem.read a.toNat .four) else .error (.accessFault t.pc a .four .read)

/-- 20_memory.md R81: nothing the core does invalidates a grant; the host's move clears its flag and changes neither
the store nor anything else, and the fetch path does not use the grant it cleared. -/
def Obligations.OnlyTheHostInvalidatesAGrant : Prop :=
  (∀ (s t : State) (g : Grant), s.grant = some g → g.valid = true → step s = .next t → t.grant = some g) ∧
    ∀ s : State, ∃ t, HostMove.invalidateGrant.apply s = .answered .done t ∧
      t = { s with grant := s.grant.map fun g => { g with valid := false } } ∧ ∀ a, t.usableGrant a = none

/-- 20_memory.md R82, 60_exceptions.md R245 (decision D15): no step raises InvalidatedAccess. -/
def Obligations.NoStepRaisesInvalidatedAccess : Prop :=
  ∀ (s t : State) (pc : Word), step s = .next t → t.faultInfo = some (.invalidatedAccess pc) →
    s.faultInfo = some (.invalidatedAccess pc)

/-! ### Upper immediate and jumps -/

/-- 40_upper_immediate.md R140: every word with opcode 0110111 is LUI; it completes in every state with
x[rd] <- inst & 0xFFFFF000. -/
def Obligations.LuiWritesTheUpperImmediate : Prop :=
  ∀ (w : Word) (s : State), w &&& 0x0000007F#32 = 0x00000037#32 →
    decode w = .instr (.lui (rdOf w) (fieldU w)) ∧
      ∃ t, exec (.lui (rdOf w) (fieldU w)) s = .next t ∧ s.Computes t (rdOf w) (w &&& 0xFFFFF000#32)

/-- 40_upper_immediate.md R140, R141 (decision D4): LUI and AUIPC complete in every state; the value is the 20-bit
field times 2^12, for AUIPC with the address of the instruction added, modulo 2^32. -/
def Obligations.UpperImmediateResults : Prop :=
  ∀ (s : State) (rd : Reg) (imm : BitVec 20),
    (∃ t, exec (.lui rd imm) s = .next t ∧ s.Computes t rd (BitVec.ofNat 32 (imm.toNat * 2 ^ 12))) ∧
    ∃ t, exec (.auipc rd imm) s = .next t ∧ s.Computes t rd (BitVec.ofNat 32 (s.pc.toNat + imm.toNat * 2 ^ 12))

/-- 41_jumps.md R145, R146, 10_state.md R38, R40 (decisions D4, D13): JAL and JALR complete in every state, link to
rd, and go to pc plus the signed offset, or to the sum of the old register and the signed immediate with bit 0
cleared. -/
def Obligations.JumpResults : Prop :=
  ∀ (s : State) (rd rs1 : Reg) (offset : BitVec 21) (imm : BitVec 12),
    (∃ t, exec (.jal rd offset) s = .next t ∧ s.Jumps t rd (BitVec.ofInt 32 (s.pc.toNat + offset.toInt))) ∧
    ∃ t, exec (.jalr rd rs1 imm) s = .next t ∧
      s.Jumps t rd (BitVec.ofNat 32 (2 * ((BitVec.ofInt 32 ((s.readReg rs1).toNat + imm.toInt)).toNat / 2)))

/-! ### Branches -/

/-- 42_branches.md R150 to R156 (decision D4): the six branches complete in every state; the target is pc plus the
signed offset when the relation holds, else pc + 4, and nothing else changes. -/
def Obligations.BranchResults : Prop :=
  ∀ (s : State) (rs1 rs2 : Reg) (offset : BitVec 13),
    let a := s.readReg rs1
    let b := s.readReg rs2
    let target := BitVec.ofInt 32 (s.pc.toNat + offset.toInt)
    (∃ t, exec (.beq rs1 rs2 offset) s = .next t ∧ s.GoesTo t (if a = b then target else s.pc + 4)) ∧
    (∃ t, exec (.bne rs1 rs2 offset) s = .next t ∧ s.GoesTo t (if a ≠ b then target else s.pc + 4)) ∧
    (∃ t, exec (.blt rs1 rs2 offset) s = .next t ∧ s.GoesTo t (if a.toInt < b.toInt then target else s.pc + 4)) ∧
    (∃ t, exec (.bge rs1 rs2 offset) s = .next t ∧ s.GoesTo t (if b.toInt ≤ a.toInt then target else s.pc + 4)) ∧
    (∃ t, exec (.bltu rs1 rs2 offset) s = .next t ∧ s.GoesTo t (if a.toNat < b.toNat then target else s.pc + 4)) ∧
    ∃ t, exec (.bgeu rs1 rs2 offset) s = .next t ∧ s.GoesTo t (if b.toNat ≤ a.toNat then target else s.pc + 4)

/-! ### Loads and stores -/

/-- 43_loads.md R160, 44_stores.md R170, 20_memory.md R63 (decision D4): the effective address is the register plus
the signed displacement, modulo 2^32. -/
def Obligations.EffectiveAddressWraps : Prop :=
  ∀ (s : State) (rs1 : Reg) (imm : BitVec 12),
    ((s.effectiveAddress rs1 imm).toNat : Int) = ((s.readReg rs1).toNat + imm.toInt) % 2 ^ 32

/-- 43_loads.md R160 to R166 (decisions D1, D2, D13, D20): each load completes when its bytes lie in memory, at any
alignment and for any rd; the value is the bytes read as a number, signed for LB and LH. -/
def Obligations.LoadResults : Prop :=
  ∀ (s : State) (rd rs1 : Reg) (imm : BitVec 12),
    let ea := s.effectiveAddress rs1 imm
    let b0 := s.mem.byte ea.toNat
    let b1 := s.mem.byte (ea.toNat + 1)
    let b2 := s.mem.byte (ea.toNat + 2)
    let b3 := s.mem.byte (ea.toNat + 3)
    (ea.toNat + 1 ≤ s.cfg.memSize →
      (∃ t, exec (.lb rd rs1 imm) s = .next t ∧ s.Loads t rd (BitVec.ofInt 32 b0.toInt)) ∧
      ∃ t, exec (.lbu rd rs1 imm) s = .next t ∧ s.Loads t rd (BitVec.ofNat 32 b0.toNat)) ∧
    (ea.toNat + 2 ≤ s.cfg.memSize →
      (∃ t, exec (.lh rd rs1 imm) s = .next t ∧ s.Loads t rd (BitVec.ofInt 32 (b0.toNat + 2 ^ 8 * b1.toInt))) ∧
      ∃ t, exec (.lhu rd rs1 imm) s = .next t ∧ s.Loads t rd (BitVec.ofNat 32 (b0.toNat + 2 ^ 8 * b1.toNat))) ∧
    (ea.toNat + 4 ≤ s.cfg.memSize →
      ∃ t, exec (.lw rd rs1 imm) s = .next t ∧
        s.Loads t rd (BitVec.ofNat 32 (b0.toNat + 2 ^ 8 * b1.toNat + 2 ^ 16 * b2.toNat + 2 ^ 24 * b3.toNat)))

/-- 44_stores.md R170 to R173 (decisions D1, D2): each store completes when its bytes lie in memory, at any alignment;
it sets exactly the low 1, 2 or 4 bytes of x[rs2] at the effective address. -/
def Obligations.StoreResults : Prop :=
  ∀ (s : State) (rs1 rs2 : Reg) (imm : BitVec 12),
    let ea := s.effectiveAddress rs1 imm
    (ea.toNat + 1 ≤ s.cfg.memSize →
      ∃ t, exec (.sb rs1 rs2 imm) s = .next t ∧ s.Stores t ea .one (s.readReg rs2)) ∧
    (ea.toNat + 2 ≤ s.cfg.memSize →
      ∃ t, exec (.sh rs1 rs2 imm) s = .next t ∧ s.Stores t ea .two (s.readReg rs2)) ∧
    (ea.toNat + 4 ≤ s.cfg.memSize →
      ∃ t, exec (.sw rs1 rs2 imm) s = .next t ∧ s.Stores t ea .four (s.readReg rs2))

/-- 43_loads.md R160, 44_stores.md R170, 60_exceptions.md R242, R244, R246 (decisions D5, D11, D20, D23; log 4): a
load or store out of bounds, for any rd, takes the AccessFault with nothing written. -/
def Obligations.DataAccessOutOfBoundsFaults : Prop :=
  ∀ (i : Instr) (d : DataAccess) (s : State), dataAccess i = some d →
    s.cfg.memSize < (s.effectiveAddress d.base d.disp).toNat + d.len.bytes →
      ∃ t, exec i s = .next t ∧
        s.FaultsWith t (.accessFault s.pc (s.effectiveAddress d.base d.disp) d.len d.dir) ∧ s.SameFetchPath t ∧
        t.simTime = s.simTime + s.cfg.accessLatency

/-- 43_loads.md R166, 20_memory.md R62, R68: an instruction changes no byte of memory but those its store addresses. -/
def Obligations.OnlyStoresChangeMemory : Prop :=
  ∀ (i : Instr) (s t : State) (a : Nat), exec i s = .next t → t.mem.byte a ≠ s.mem.byte a →
    ∃ d, dataAccess i = some d ∧ d.dir = .write ∧ (s.effectiveAddress d.base d.disp).toNat ≤ a ∧
      a < (s.effectiveAddress d.base d.disp).toNat + d.len.bytes

/-- 44_stores.md R174: a store, then a load from the same effective address, gives back what was stored, extended as
the load extends. -/
def Obligations.StoreThenLoad : Prop :=
  ∀ (s t : State) (rs1 rs2 rd rb : Reg) (imm disp : BitVec 12), rd ≠ 0#5 →
    t.effectiveAddress rb disp = s.effectiveAddress rs1 imm →
    (exec (.sw rs1 rs2 imm) s = .next t → t.loopState = .running →
      ∃ u, exec (.lw rd rb disp) t = .next u ∧ u.readReg rd = s.readReg rs2) ∧
    (exec (.sh rs1 rs2 imm) s = .next t → t.loopState = .running →
      (∃ u, exec (.lhu rd rb disp) t = .next u ∧ u.readReg rd = ((s.readReg rs2).extractLsb' 0 16).setWidth 32) ∧
      ∃ u, exec (.lh rd rb disp) t = .next u ∧ u.readReg rd = ((s.readReg rs2).extractLsb' 0 16).signExtend 32) ∧
    (exec (.sb rs1 rs2 imm) s = .next t → t.loopState = .running →
      (∃ u, exec (.lbu rd rb disp) t = .next u ∧ u.readReg rd = ((s.readReg rs2).extractLsb' 0 8).setWidth 32) ∧
      ∃ u, exec (.lb rd rb disp) t = .next u ∧ u.readReg rd = ((s.readReg rs2).extractLsb' 0 8).signExtend 32)

/-- 20_memory.md R87, R89, 70_reset_and_hazards.md R279: a word stored is the word fetched from its address by the
very next cycle, through a grant or a timed read, with no action in between. -/
def Obligations.StoreIsSeenByTheNextFetch : Prop :=
  ∀ (s t : State) (rs1 rs2 : Reg) (imm : BitVec 12),
    (s.effectiveAddress rs1 imm).toNat + 4 ≤ s.cfg.memSize → exec (.sw rs1 rs2 imm) s = .next t →
      ∀ u : State, u.mem = t.mem → u.cfg = t.cfg → u.pc = s.effectiveAddress rs1 imm → u.fetch.2 = .ok (s.readReg rs2)

/-! ### The ALU -/

/-- 45_alu_immediate.md R181, 46_alu_register.md R196, R197, R206 (decision D4): ADDI, ADD and SUB complete in every
state, with the result modulo 2^32. -/
def Obligations.AddSubtractResults : Prop :=
  ∀ (s : State) (rd rs1 rs2 : Reg) (imm : BitVec 12),
    (∃ t, exec (.addi rd rs1 imm) s = .next t ∧ s.Computes t rd (BitVec.ofInt 32 ((s.readReg rs1).toInt + imm.toInt))) ∧
    (∃ t, exec (.add rd rs1 rs2) s = .next t ∧
      s.Computes t rd (BitVec.ofNat 32 ((s.readReg rs1).toNat + (s.readReg rs2).toNat))) ∧
    ∃ t, exec (.sub rd rs1 rs2) s = .next t ∧
      s.Computes t rd (BitVec.ofInt 32 ((s.readReg rs1).toInt - (s.readReg rs2).toInt))

/-- 45_alu_immediate.md R182, R183, 46_alu_register.md R199, R200 (decision D14): the four set-less-than instructions
complete in every state and write exactly 1 or 0; SLTIU reads the sign-extended immediate as unsigned. -/
def Obligations.SetLessThanResults : Prop :=
  ∀ (s : State) (rd rs1 rs2 : Reg) (imm : BitVec 12),
    let a := s.readReg rs1
    let b := s.readReg rs2
    (∃ t, exec (.slti rd rs1 imm) s = .next t ∧ s.Computes t rd (if a.toInt < imm.toInt then 1#32 else 0#32)) ∧
    (∃ t, exec (.sltiu rd rs1 imm) s = .next t ∧
      s.Computes t rd (if (a.toNat : Int) < imm.toInt % 2 ^ 32 then 1#32 else 0#32)) ∧
    (∃ t, exec (.slt rd rs1 rs2) s = .next t ∧ s.Computes t rd (if a.toInt < b.toInt then 1#32 else 0#32)) ∧
    ∃ t, exec (.sltu rd rs1 rs2) s = .next t ∧ s.Computes t rd (if a.toNat < b.toNat then 1#32 else 0#32)

/-- 45_alu_immediate.md R184 to R186, 46_alu_register.md R201, R204, R205: the six logical instructions complete in
every state, bit by bit, with the sign-extended immediate. -/
def Obligations.LogicResults : Prop :=
  ∀ (s : State) (rd rs1 rs2 : Reg) (imm : BitVec 12),
    let a := s.readReg rs1
    let b := s.readReg rs2
    (∃ t v, exec (.xori rd rs1 imm) s = .next t ∧ s.Computes t rd v ∧
      ∀ k < 32, v.getLsbD k = (a.getLsbD k ^^ imm.getLsbD (min k 11))) ∧
    (∃ t v, exec (.ori rd rs1 imm) s = .next t ∧ s.Computes t rd v ∧
      ∀ k < 32, v.getLsbD k = (a.getLsbD k || imm.getLsbD (min k 11))) ∧
    (∃ t v, exec (.andi rd rs1 imm) s = .next t ∧ s.Computes t rd v ∧
      ∀ k < 32, v.getLsbD k = (a.getLsbD k && imm.getLsbD (min k 11))) ∧
    (∃ t v, exec (.xor rd rs1 rs2) s = .next t ∧ s.Computes t rd v ∧
      ∀ k < 32, v.getLsbD k = (a.getLsbD k ^^ b.getLsbD k)) ∧
    (∃ t v, exec (.or rd rs1 rs2) s = .next t ∧ s.Computes t rd v ∧
      ∀ k < 32, v.getLsbD k = (a.getLsbD k || b.getLsbD k)) ∧
    ∃ t v, exec (.and rd rs1 rs2) s = .next t ∧ s.Computes t rd v ∧
      ∀ k < 32, v.getLsbD k = (a.getLsbD k && b.getLsbD k)

/-- 45_alu_immediate.md R187 to R189, 46_alu_register.md R195, R198, R202, R203: the six shifts complete in every
state. The amount is the 5-bit field, or the register's value modulo 32; a left shift multiplies by a power of two
modulo 2^32, a logical right shift divides the unsigned number, an arithmetic one the signed number rounding down. -/
def Obligations.ShiftResults : Prop :=
  ∀ (s : State) (rd rs1 rs2 : Reg) (shamt : BitVec 5),
    let a := s.readReg rs1
    let n := (s.readReg rs2).toNat % 32
    (∃ t, exec (.slli rd rs1 shamt) s = .next t ∧ s.Computes t rd (BitVec.ofNat 32 (a.toNat * 2 ^ shamt.toNat))) ∧
    (∃ t, exec (.srli rd rs1 shamt) s = .next t ∧ s.Computes t rd (BitVec.ofNat 32 (a.toNat / 2 ^ shamt.toNat))) ∧
    (∃ t, exec (.srai rd rs1 shamt) s = .next t ∧ s.Computes t rd (BitVec.ofInt 32 (a.toInt / 2 ^ shamt.toNat))) ∧
    (∃ t, exec (.sll rd rs1 rs2) s = .next t ∧ s.Computes t rd (BitVec.ofNat 32 (a.toNat * 2 ^ n))) ∧
    (∃ t, exec (.srl rd rs1 rs2) s = .next t ∧ s.Computes t rd (BitVec.ofNat 32 (a.toNat / 2 ^ n))) ∧
    ∃ t, exec (.sra rd rs1 rs2) s = .next t ∧ s.Computes t rd (BitVec.ofInt 32 (a.toInt / 2 ^ n))

/-- 45_alu_immediate.md R184 to R186, 46_alu_register.md R201, R204, R205, word by word: every word the table's mask
gives to one of the six logical operations runs as it, on the operands its fields name; the canonical funct7 of the
three register forms is 0. The funct3 and canonical funct7 values are from general knowledge (R118, R119, R127; log
13). -/
def Obligations.LogicWordsRun : Prop :=
  ∀ (w : Word) (s : State),
    let a := s.readReg (rs1Of w)
    let b := s.readReg (rs2Of w)
    (w &&& 0x0000707F#32 = 0x00004013#32 → decode w = .instr (.xori (rdOf w) (rs1Of w) (fieldI w)) ∧
      ∃ t v, exec (.xori (rdOf w) (rs1Of w) (fieldI w)) s = .next t ∧ s.Computes t (rdOf w) v ∧
        ∀ k < 32, v.getLsbD k = (a.getLsbD k ^^ (immI w).getLsbD k)) ∧
    (w &&& 0x0000707F#32 = 0x00006013#32 → decode w = .instr (.ori (rdOf w) (rs1Of w) (fieldI w)) ∧
      ∃ t v, exec (.ori (rdOf w) (rs1Of w) (fieldI w)) s = .next t ∧ s.Computes t (rdOf w) v ∧
        ∀ k < 32, v.getLsbD k = (a.getLsbD k || (immI w).getLsbD k)) ∧
    (w &&& 0x0000707F#32 = 0x00007013#32 → decode w = .instr (.andi (rdOf w) (rs1Of w) (fieldI w)) ∧
      ∃ t v, exec (.andi (rdOf w) (rs1Of w) (fieldI w)) s = .next t ∧ s.Computes t (rdOf w) v ∧
        ∀ k < 32, v.getLsbD k = (a.getLsbD k && (immI w).getLsbD k)) ∧
    (w &&& 0x0000707F#32 = 0x00004033#32 → decode w = .instr (.xor (rdOf w) (rs1Of w) (rs2Of w)) ∧
      ∃ t v, exec (.xor (rdOf w) (rs1Of w) (rs2Of w)) s = .next t ∧ s.Computes t (rdOf w) v ∧
        ∀ k < 32, v.getLsbD k = (a.getLsbD k ^^ b.getLsbD k)) ∧
    (w &&& 0x0000707F#32 = 0x00006033#32 → decode w = .instr (.or (rdOf w) (rs1Of w) (rs2Of w)) ∧
      ∃ t v, exec (.or (rdOf w) (rs1Of w) (rs2Of w)) s = .next t ∧ s.Computes t (rdOf w) v ∧
        ∀ k < 32, v.getLsbD k = (a.getLsbD k || b.getLsbD k)) ∧
    (w &&& 0x0000707F#32 = 0x00007033#32 → decode w = .instr (.and (rdOf w) (rs1Of w) (rs2Of w)) ∧
      ∃ t v, exec (.and (rdOf w) (rs1Of w) (rs2Of w)) s = .next t ∧ s.Computes t (rdOf w) v ∧
        ∀ k < 32, v.getLsbD k = (a.getLsbD k && b.getLsbD k)) ∧
    ∀ rd rs1 rs2 : Reg, funct7Of (encode (.xor rd rs1 rs2)) = 0b0000000#7 ∧
      funct7Of (encode (.or rd rs1 rs2)) = 0b0000000#7 ∧ funct7Of (encode (.and rd rs1 rs2)) = 0b0000000#7

/-- 45_alu_immediate.md R188, 46_alu_register.md R202, R203, word by word: every word the table's mask gives to SRLI,
SRL or SRA runs as it, bit by bit, with zeros or copies of bit 31 entering at bit 31; their canonical funct7 is
0000000, or 0100000 for SRA (R127, from general knowledge; log 13). -/
def Obligations.RightShiftWordsRun : Prop :=
  ∀ (w : Word) (s : State),
    let a := s.readReg (rs1Of w)
    let n := ((s.readReg (rs2Of w)).extractLsb' 0 5).toNat
    (w &&& 0x4000707F#32 = 0x00005013#32 → decode w = .instr (.srli (rdOf w) (rs1Of w) (rs2Of w)) ∧
      ∃ t v, exec (.srli (rdOf w) (rs1Of w) (rs2Of w)) s = .next t ∧ s.Computes t (rdOf w) v ∧
        ∀ k < 32, v.getLsbD k = if k + (rs2Of w).toNat < 32 then a.getLsbD (k + (rs2Of w).toNat) else false) ∧
    (w &&& 0x4000707F#32 = 0x00005033#32 → decode w = .instr (.srl (rdOf w) (rs1Of w) (rs2Of w)) ∧
      ∃ t v, exec (.srl (rdOf w) (rs1Of w) (rs2Of w)) s = .next t ∧ s.Computes t (rdOf w) v ∧
        ∀ k < 32, v.getLsbD k = if k + n < 32 then a.getLsbD (k + n) else false) ∧
    (w &&& 0x4000707F#32 = 0x40005033#32 → decode w = .instr (.sra (rdOf w) (rs1Of w) (rs2Of w)) ∧
      ∃ t v, exec (.sra (rdOf w) (rs1Of w) (rs2Of w)) s = .next t ∧ s.Computes t (rdOf w) v ∧
        ∀ k < 32, v.getLsbD k = if k + n < 32 then a.getLsbD (k + n) else a.getLsbD 31) ∧
    ∀ rd rs1 rs2 : Reg, funct7Of (encode (.srli rd rs1 rs2)) = 0b0000000#7 ∧
      funct7Of (encode (.srl rd rs1 rs2)) = 0b0000000#7 ∧ funct7Of (encode (.sra rd rs1 rs2)) = 0b0100000#7

/-! ### The loop -/

/-- 48_fetch_execute_loop.md R220, R224: a step whose fetched word decodes to an instruction runs that instruction on
the state the fetch leaves, and the loop then adds CYCLE_TIME and emits the operation's event when the instruction
completed, and does nothing more when it faulted. -/
def Obligations.StepRunsTheDecodedInstruction : Prop :=
  ∀ (s : State) (w : Word) (i : Instr), s.AboutToRun w → decode w = .instr i →
    ∃ t u, s.fetch = (t, .ok w) ∧ t.regs = s.regs ∧ t.pc = s.pc ∧ t.mem = s.mem ∧ t.loopState = .running ∧
      t.cfg = s.cfg ∧ exec i t = .next u ∧
      step s = .next (if u.loopState = .running then
        { u with simTime := u.simTime + u.cfg.cycleTime, telemetry := u.telemetry ++ [.executed i.tag] } else u)

/-- The word the host places is the word the next step runs (20_memory.md R84; log 3). -/
def Obligations.PlacedWordIsFetchedNext : Prop :=
  ∀ (s : State) (w : Word), s.Ready → s.pc.toNat + 4 ≤ s.cfg.memSize → (s.withFetchWord 32 w.toNat).AboutToRun w

/-- 20_memory.md R84, R86, 60_exceptions.md R242, R244 (decisions D5, D11; log 4): a fetch that does not lie in memory
faults, and the cycle writes nothing. -/
def Obligations.FetchOutOfBoundsFaults : Prop :=
  ∀ s : State, s.Ready → s.cfg.memSize < s.pc.toNat + 4 →
    ∃ t, step s = .next t ∧ s.FaultsWith t (.accessFault s.pc s.pc .four .read)

/-- 47_system_unimplemented.md R212, 60_exceptions.md R241, R243, R244 (decisions D11, D12; log 4): an unrecognized
word faults, UnimplementedFeature for opcode 1110011 and DecodeFault for every other, and the cycle writes nothing. -/
def Obligations.UnrecognizedWordFaults : Prop :=
  ∀ (s : State) (w : Word), s.AboutToRun w → (∃ why, decode w = .unrecognized why) →
    ∃ t, step s = .next t ∧
      s.FaultsWith t (if w.extractLsb' 0 7 = 0b1110011#7 then .unimplementedFeature s.pc w else .decodeFault s.pc w)

/-- 48_fetch_execute_loop.md R227, R228, 60_exceptions.md R248 (decision D17; the latch's later value: log 15): with a
stop request pending the cycle is not started, even one that would fault; the loop is Halted with everything else as
it was, and stays so. -/
def Obligations.StopRequestHalts : Prop :=
  ∀ s : State, s.loopState = .running → s.stopRequested = true → ∀ k,
    runSteps (k + 1) s = .next { s with loopState := .halted }

/-- 48_fetch_execute_loop.md R226: no event leaves Faulted: no further cycle executes, and no host move changes the
loop state or the record, while the registers, pc and memory stay readable. -/
def Obligations.FaultedIsTerminal : Prop :=
  ∀ s : State, s.loopState = .faulted →
    (∀ k, runSteps k s = .next s) ∧
    (∀ m a t, HostMove.apply m s = .answered a t → t.loopState = .faulted ∧ t.faultInfo = s.faultInfo) ∧
    (∀ index, index < 32 → (HostMove.readRegister index).apply s = .answered (.value (s.readReg (BitVec.ofNat 5 index))) s) ∧
    HostMove.readPc.apply s = .answered (.value s.pc) s ∧
    ∀ (a : Word) (n : Len), a.toNat + n.bytes ≤ s.cfg.memSize →
      (HostMove.debugRead a n.bytes).apply s = .answered (.value (s.mem.read a.toNat n)) s

/-- 60_exceptions.md R255 (decision D17; log 14): the host may raise the stop request in any state. In Running the
latch is set and the next cycle boundary halts the loop; in a terminal state the request is ignored. Nothing else, no
step and no host move, reaches Halted. -/
def Obligations.OnlyAStopRequestHalts : Prop :=
  (∀ s : State, ∃ t, HostMove.requestStop.apply s = .answered .done t ∧
    (s.loopState = .running → t.stopRequested = true ∧ ∃ u, step t = .next u ∧ u.loopState = .halted) ∧
    (s.loopState ≠ .running → t = s)) ∧
  (∀ s t : State, step s = .next t → t.loopState = .halted →
    s.loopState = .halted ∨ (s.loopState = .running ∧ s.stopRequested = true)) ∧
  ∀ (m : HostMove) (a : HostAnswer) (s t : State), m.apply s = .answered a t → t.loopState = s.loopState

/-- 60_exceptions.md R244, R246 to R248, 48_fetch_execute_loop.md R221, R225 (decisions D11, D12, D23; log 4): a step
that faults writes no register, pc or byte of memory, records and reports the fault once; and the fault is the
fetch's, else the decoder's, else the data access's. -/
def Obligations.FaultsArePreciseAndInPhaseOrder : Prop :=
  ∀ s t : State, s.loopState = .running → step s = .next t → t.loopState = .faulted →
    ∃ f, s.FaultsWith t f ∧ f.atPc = s.pc ∧ t.regs = s.regs ∧ t.mem = s.mem ∧
      if s.cfg.memSize < s.pc.toNat + 4 then f = .accessFault s.pc s.pc .four .read
      else match decode (s.mem.read s.pc.toNat .four) with
        | .unrecognized _ => f = faultOfUnrecognized s.pc (s.mem.read s.pc.toNat .four)
        | .instr i => ∃ d, dataAccess i = some d ∧
            s.cfg.memSize < (s.effectiveAddress d.base d.disp).toNat + d.len.bytes ∧
            f = .accessFault s.pc (s.effectiveAddress d.base d.disp) d.len d.dir

/-- 70_reset_and_hazards.md R286: a running machine without a stop request is never stuck: its step answers, and the
cycle has completed or has faulted. No step faults or refuses in the host's sense, and none changes the parameters
(60_exceptions.md R259; log 1, log 4). -/
def Obligations.EveryStepAnswers : Prop :=
  ∀ s : State, ∃ t, step s = .next t ∧ t.cfg = s.cfg ∧
    (s.Ready → (t.loopState = .running ∧ ∃ i : Instr, t.telemetry = s.telemetry ++ [.executed i.tag]) ∨
      (t.loopState = .faulted ∧ ∃ f, t.faultInfo = some f ∧ t.telemetry = s.telemetry ++ [.faulted f])) ∧
    (¬ s.Ready → t.telemetry = s.telemetry ∧ t.simTime = s.simTime)

/-- 20_memory.md R91, 48_fetch_execute_loop.md R230, 70_reset_and_hazards.md R284 (decisions D16, D24): a completed
cycle adds CYCLE_TIME and ACCESS_LATENCY for each timed transaction: the fetch unless a grant served it, and the data
access of a load or store. A faulting cycle adds no CYCLE_TIME: the model's reading (log 16). -/
def Obligations.SimTimeOfACycle : Prop :=
  ∀ s t : State, s.Ready → step s = .next t →
    t.simTime = s.simTime + (if s.fetchesByGrant then 0 else s.cfg.accessLatency) +
      (if s.cfg.memSize < s.pc.toNat + 4 then 0 else match decode (s.mem.read s.pc.toNat .four) with
        | .unrecognized _ => 0
        | .instr i => if (dataAccess i).isSome then s.cfg.accessLatency else 0) +
      (if t.loopState = .running then s.cfg.cycleTime else 0)

/-- 10_state.md R41: once pc[0] is 0 every step keeps it 0, whatever the program, while pc[1] is free. -/
def Obligations.PcBitZeroStaysZero : Prop :=
  ∀ s t : State, s.pc.getLsbD 0 = false → step s = .next t → t.pc.getLsbD 0 = false

/-- 48_fetch_execute_loop.md R232, 10_state.md R44, R45, 20_memory.md R84, 70_reset_and_hazards.md R281: two machines
alike in registers, pc, memory, loop state, fault record, stop request and memory size stay alike for ever, whatever
their grants, their fetch paths' choices, their simulated time and its amounts, and their sinks. -/
def Obligations.FetchPathAndTimeAreInvisible : Prop :=
  ∀ (s s' : State) (k : Nat), s.ArchEq s' →
    ∃ t t' : State, runSteps k s = .next t ∧ runSteps k s' = .next t' ∧ t.ArchEq t'

/-- 60_exceptions.md R256, R257 (decision D18): with NO_DEBUG_WRITES and no stop request, a run with the host reading
and invalidating between cycles as it likes ends where the core alone ends after as many cycles. -/
def Obligations.PassiveHostIsInvisible : Prop :=
  ∀ (ms : List Move) (s : State), (∀ m ∈ ms, m.passive = true) →
    ∃ t u : State, runMoves ms s = .next t ∧ runSteps (cyclesOf ms) s = .next u ∧ t.ArchEq u
end

