-- ==== Sys2Proof/Laws/Memory.lean ====
section
/-! SUPPORT. The byte array: read after write, what a write leaves alone, and the canonical form. -/

namespace Sys2Proof.Machine

/-! ### One byte -/

@[simp] theorem Memory.byte_nil (a : Nat) : Memory.byte [] a = Memory.unlisted := rfl

theorem Memory.byte_cons (c : Host.Cell) (m : Memory) (a : Nat) :
    Memory.byte (c :: m) a = if c.1 = a then c.2 else Memory.byte m a := rfl

theorem Memory.erase_cons (c : Host.Cell) (m : Memory) (a : Nat) :
    Memory.erase (c :: m) a = if c.1 = a then Memory.erase m a else c :: Memory.erase m a := by
  by_cases h : c.1 = a <;> simp [Memory.erase, h]

theorem Memory.byte_erase (m : Memory) (a b : Nat) :
    Memory.byte (m.erase a) b = if b = a then Memory.unlisted else Memory.byte m b := by
  induction m with
  | nil => simp [Memory.erase]
  | cons c m ih =>
    rw [Memory.erase_cons]
    by_cases hc : c.1 = a
    · simp only [hc, if_true, ih, Memory.byte_cons]
      by_cases hb : b = a
      · simp [hb]
      · simp [hb, Ne.symm hb]
    · simp only [hc, if_false, Memory.byte_cons, ih]
      by_cases hb : b = a
      · subst hb; simp [hc]
      · simp [hb]

theorem Memory.mem_erase {m : Memory} {a : Nat} {c : Host.Cell} : c ∈ m.erase a ↔ c ∈ m ∧ c.1 ≠ a := by
  simp [Memory.erase]

theorem Memory.insert_cons (c : Host.Cell) (m : Memory) (a : Nat) (v : Byte) :
    Memory.insert (c :: m) a v = if a < c.1 then (a, v) :: c :: m else c :: Memory.insert m a v := rfl

theorem Memory.byte_insert {m : Memory} {a : Nat} (h : ∀ c ∈ m, c.1 ≠ a) (v : Byte) (b : Nat) :
    Memory.byte (m.insert a v) b = if b = a then v else Memory.byte m b := by
  induction m with
  | nil => simp [Memory.insert, Memory.byte_cons, eq_comm]
  | cons c m ih =>
    have hc : c.1 ≠ a := h c (by simp)
    have ih := ih (fun d hd => h d (by simp [hd]))
    rw [Memory.insert_cons]
    by_cases hlt : a < c.1
    · simp [hlt, Memory.byte_cons, eq_comm]
    · simp only [hlt, if_false, Memory.byte_cons, ih]
      by_cases hb : b = a
      · subst hb; simp [hc]
      · simp [hb]

theorem Memory.mem_insert {m : Memory} {a : Nat} {v : Byte} {c : Host.Cell} :
    c ∈ m.insert a v ↔ c = (a, v) ∨ c ∈ m := by
  induction m with
  | nil => simp [Memory.insert]
  | cons d m ih =>
    rw [Memory.insert_cons]
    split
    · simp
    · simp [ih]; tauto

/-- Everything about one byte written, in any list. -/
@[simp] theorem Memory.byte_set (m : Memory) (a : Nat) (v : Byte) (b : Nat) :
    Memory.byte (m.set a v) b = if b = a then v else Memory.byte m b := by
  unfold Memory.set
  split
  · next h => rw [Memory.byte_erase, h]
  · rw [Memory.byte_insert (fun c hc => (Memory.mem_erase.mp hc).2), Memory.byte_erase]
    by_cases hb : b = a <;> simp [hb]

/-! ### The canonical form -/

theorem Memory.wf_nil : Memory.wf [] := by simp [Memory.wf]

theorem Memory.wf_erase {m : Memory} (h : m.wf) (a : Nat) : (m.erase a).wf :=
  ⟨h.1.filter _, fun c hc => h.2 c (Memory.mem_erase.mp hc).1⟩

theorem Memory.wf_insert {m : Memory} {a : Nat} {v : Byte} (h : m.wf) (ha : ∀ c ∈ m, c.1 ≠ a)
    (hv : v ≠ Memory.unlisted) : (m.insert a v).wf := by
  refine ⟨?_, fun c hc => ?_⟩
  · have h1 := h.1
    clear h hv
    induction m with
    | nil => simp [Memory.insert]
    | cons c m ih =>
      have hc : c.1 ≠ a := ha c (by simp)
      rw [List.pairwise_cons] at h1
      have ih := ih (fun d hd => ha d (by simp [hd])) h1.2
      rw [Memory.insert_cons]
      split
      · next hlt =>
        refine List.pairwise_cons.mpr ⟨fun d hd => ?_, List.pairwise_cons.mpr h1⟩
        rcases List.mem_cons.mp hd with rfl | hd
        · exact hlt
        · exact hlt.trans (h1.1 d hd)
      · refine List.pairwise_cons.mpr ⟨fun d hd => ?_, ih⟩
        rcases Memory.mem_insert.mp hd with rfl | hd
        · show c.1 < a
          omega
        · exact h1.1 d hd
  · rcases Memory.mem_insert.mp hc with rfl | hc
    · exact hv
    · exact h.2 c hc

theorem Memory.wf_set {m : Memory} (h : m.wf) (a : Nat) (v : Byte) : (m.set a v).wf := by
  unfold Memory.set
  split
  · exact Memory.wf_erase h a
  · next hv => exact Memory.wf_insert (Memory.wf_erase h a) (fun c hc => (Memory.mem_erase.mp hc).2) hv

theorem Memory.wf_write {m : Memory} (h : m.wf) (a : Nat) (v : Word) (n : Len) : (m.write a v n).wf := by
  cases n <;> simp only [Memory.write] <;> repeat (first | exact h | apply Memory.wf_set)

theorem Memory.wf_writeBytes {m : Memory} (h : m.wf) (a : Nat) (bs : List Byte) : (m.writeBytes a bs).wf := by
  induction bs generalizing m a with
  | nil => exact h
  | cons b bs ih => exact ih (Memory.wf_set h a b) (a + 1)

/-! ### Listed addresses stay below a bound -/

theorem Memory.lt_of_mem_set {m : Memory} {a : Nat} {v : Byte} {k : Nat} (h : ∀ c ∈ m, c.1 < k) (ha : a < k) :
    ∀ c ∈ m.set a v, c.1 < k := by
  intro c hc
  unfold Memory.set at hc
  split at hc
  · exact h c (Memory.mem_erase.mp hc).1
  · rcases Memory.mem_insert.mp hc with rfl | hc
    · exact ha
    · exact h c (Memory.mem_erase.mp hc).1

theorem Memory.lt_of_mem_write {m : Memory} {a : Nat} {v : Word} {n : Len} {k : Nat} (h : ∀ c ∈ m, c.1 < k)
    (ha : a + n.bytes ≤ k) : ∀ c ∈ m.write a v n, c.1 < k := by
  cases n <;> simp only [Memory.write, Len.bytes] at * <;>
    repeat (first | exact h | (refine Memory.lt_of_mem_set ?_ (by omega)))

theorem Memory.lt_of_mem_writeBytes {m : Memory} {a : Nat} {bs : List Byte} {k : Nat} (h : ∀ c ∈ m, c.1 < k)
    (ha : a + bs.length ≤ k) : ∀ c ∈ m.writeBytes a bs, c.1 < k := by
  induction bs generalizing m a with
  | nil => exact h
  | cons b bs ih =>
    have hl : a + (bs.length + 1) ≤ k := ha
    exact ih (Memory.lt_of_mem_set h (by omega)) (by omega)

/-! ### Whole accesses -/

/-- A write changes exactly the addressed bytes. -/
theorem Memory.byte_write (m : Memory) (a : Nat) (v : Word) (n : Len) (b : Nat) :
    Memory.byte (m.write a v n) b =
      if a ≤ b ∧ b < a + n.bytes then v.extractLsb' (8 * (b - a)) 8 else Memory.byte m b := by
  by_cases hb : a ≤ b ∧ b < a + n.bytes
  · rw [if_pos hb]
    obtain ⟨k, rfl⟩ := Nat.exists_eq_add_of_le hb.1
    have hk : k < n.bytes := by omega
    rw [Nat.add_sub_cancel_left]
    cases n <;> simp only [Len.bytes] at hk <;> interval_cases k <;> simp [Memory.write]
  · rw [if_neg hb]
    cases n <;> simp only [Len.bytes] at hb <;> simp only [Memory.write, Memory.byte_set] <;>
      repeat rw [if_neg (by omega)]

/-- A bit of the low part of a concatenation. -/
theorem getLsbD_append_low {n m : Nat} (x : BitVec n) (y : BitVec m) {i : Nat} (h : i < m) :
    (x ++ y).getLsbD i = y.getLsbD i := by
  rw [BitVec.getLsbD_append, if_pos h]

/-- A bit of the high part of a concatenation. -/
theorem getLsbD_append_high {n m : Nat} (x : BitVec n) (y : BitVec m) (i : Nat) :
    (x ++ y).getLsbD (m + i) = x.getLsbD i := by
  rw [BitVec.getLsbD_append, if_neg (by omega), Nat.add_sub_cancel_left]

/-- The bits of four bytes put together: bit r of byte q. -/
theorem getLsbD_fourBytes (b0 b1 b2 b3 : Byte) {r : Nat} (hr : r < 8) :
    (b3 ++ b2 ++ b1 ++ b0 : Word).getLsbD r = b0.getLsbD r ∧
    (b3 ++ b2 ++ b1 ++ b0 : Word).getLsbD (8 + r) = b1.getLsbD r ∧
    (b3 ++ b2 ++ b1 ++ b0 : Word).getLsbD (16 + r) = b2.getLsbD r ∧
    (b3 ++ b2 ++ b1 ++ b0 : Word).getLsbD (24 + r) = b3.getLsbD r := by
  refine ⟨getLsbD_append_low _ _ hr, (getLsbD_append_high _ _ _).trans (getLsbD_append_low _ _ hr), ?_, ?_⟩
  · rw [show 16 + r = 8 + (8 + r) by omega]
    exact (getLsbD_append_high _ _ _).trans ((getLsbD_append_high _ _ _).trans (getLsbD_append_low _ _ hr))
  · rw [show 24 + r = 8 + (8 + (8 + r)) by omega]
    exact (getLsbD_append_high _ _ _).trans ((getLsbD_append_high _ _ _).trans (getLsbD_append_high _ _ _))

/-- The bits of a value read: bit i is bit i mod 8 of byte i / 8. -/
theorem Memory.getLsbD_read (m : Memory) (a : Nat) (n : Len) (i : Nat) :
    (m.read a n).getLsbD i = (decide (i < 8 * n.bytes) && (Memory.byte m (a + i / 8)).getLsbD (i % 8)) := by
  by_cases h : i < 8 * n.bytes
  · rw [decide_eq_true h, Bool.true_and]
    have h32 : i < 32 := by cases n <;> simp only [Len.bytes] at h <;> omega
    have hq : i = 8 * (i / 8) + i % 8 := by omega
    have hr : i % 8 < 8 := by omega
    generalize i / 8 = q at *
    generalize i % 8 = r at *
    subst hq
    cases n <;> simp only [Len.bytes] at h
    · obtain rfl : q = 0 := by omega
      simp only [Memory.read, BitVec.getLsbD_setWidth, decide_eq_true h32, Bool.true_and]
      simp
    · simp only [Memory.read, BitVec.getLsbD_setWidth, decide_eq_true h32, Bool.true_and]
      have : q = 0 ∨ q = 1 := by omega
      rcases this with rfl | rfl
      · rw [Nat.mul_zero, Nat.zero_add]
        exact getLsbD_append_low _ _ hr
      · exact getLsbD_append_high _ _ _
    · have hb := getLsbD_fourBytes (m.byte a) (m.byte (a + 1)) (m.byte (a + 2)) (m.byte (a + 3)) hr
      have : q = 0 ∨ q = 1 ∨ q = 2 ∨ q = 3 := by omega
      rcases this with rfl | rfl | rfl | rfl
      · rw [Nat.mul_zero, Nat.zero_add]
        exact hb.1
      · exact hb.2.1
      · exact hb.2.2.1
      · exact hb.2.2.2
  · rw [decide_eq_false h, Bool.false_and]
    cases n <;> simp only [Len.bytes] at h
    · simp only [Memory.read, BitVec.getLsbD_setWidth, BitVec.getLsbD_of_ge _ i (show 8 ≤ i by omega), Bool.and_false]
    · simp only [Memory.read, BitVec.getLsbD_setWidth, BitVec.getLsbD_of_ge _ i (show 8 + 8 ≤ i by omega), Bool.and_false]
    · exact BitVec.getLsbD_of_ge _ i (show 8 + 8 + 8 + 8 ≤ i by omega)

/-- Reading the region just written gives the low bytes of the value back. -/
theorem Memory.getLsbD_read_write (m : Memory) (a : Nat) (v : Word) (n : Len) (i : Nat) :
    ((m.write a v n).read a n).getLsbD i = (decide (i < 8 * n.bytes) && v.getLsbD i) := by
  rw [Memory.getLsbD_read]
  by_cases h : i < 8 * n.bytes
  · rw [Memory.byte_write, if_pos (by omega), BitVec.getLsbD_extractLsb', Nat.add_sub_cancel_left,
      decide_eq_true (show i % 8 < 8 by omega), Bool.true_and, show 8 * (i / 8) + i % 8 = i by omega]
  · simp [h]

theorem Memory.read_write_four (m : Memory) (a : Nat) (v : Word) : (m.write a v .four).read a .four = v := by
  refine BitVec.eq_of_getLsbD_eq fun i hi => ?_
  rw [Memory.getLsbD_read_write]
  simp [Len.bytes, hi]

/-- A read depends only on the bytes it addresses. -/
theorem Memory.read_congr {m m' : Memory} {a : Nat} {n : Len}
    (h : ∀ b, a ≤ b → b < a + n.bytes → Memory.byte m' b = Memory.byte m b) : m'.read a n = m.read a n := by
  refine BitVec.eq_of_getLsbD_eq fun i _ => ?_
  rw [Memory.getLsbD_read, Memory.getLsbD_read]
  by_cases hi : i < 8 * n.bytes
  · rw [h (a + i / 8) (by omega) (by omega)]
  · simp [hi]

end Sys2Proof.Machine
end

