-- ==== Sys2Proof/Laws/State.lean ====
section
/-! SUPPORT. One lemma for each field after each update of the state. -/

namespace Sys2Proof.Machine

/-! ### advance -/

@[simp] theorem State.advance_regs (s : State) : (s.advance).regs = s.regs := rfl
@[simp] theorem State.advance_pc (s : State) : (s.advance).pc = s.pc + 4 := rfl
@[simp] theorem State.advance_mem (s : State) : (s.advance).mem = s.mem := rfl
@[simp] theorem State.advance_loopState (s : State) : (s.advance).loopState = s.loopState := rfl
@[simp] theorem State.advance_faultInfo (s : State) : (s.advance).faultInfo = s.faultInfo := rfl
@[simp] theorem State.advance_stopRequested (s : State) : (s.advance).stopRequested = s.stopRequested := rfl
@[simp] theorem State.advance_grant (s : State) : (s.advance).grant = s.grant := rfl
@[simp] theorem State.advance_grantRequests (s : State) : (s.advance).grantRequests = s.grantRequests := rfl
@[simp] theorem State.advance_simTime (s : State) : (s.advance).simTime = s.simTime := rfl
@[simp] theorem State.advance_telemetry (s : State) : (s.advance).telemetry = s.telemetry := rfl
@[simp] theorem State.advance_cfg (s : State) : (s.advance).cfg = s.cfg := rfl

/-! ### redirect -/

@[simp] theorem State.redirect_regs (s : State) (t : Word) : (s.redirect t).regs = s.regs := rfl
@[simp] theorem State.redirect_pc (s : State) (t : Word) : (s.redirect t).pc = t := rfl
@[simp] theorem State.redirect_mem (s : State) (t : Word) : (s.redirect t).mem = s.mem := rfl
@[simp] theorem State.redirect_loopState (s : State) (t : Word) : (s.redirect t).loopState = s.loopState := rfl
@[simp] theorem State.redirect_faultInfo (s : State) (t : Word) : (s.redirect t).faultInfo = s.faultInfo := rfl
@[simp] theorem State.redirect_stopRequested (s : State) (t : Word) : (s.redirect t).stopRequested = s.stopRequested := rfl
@[simp] theorem State.redirect_grant (s : State) (t : Word) : (s.redirect t).grant = s.grant := rfl
@[simp] theorem State.redirect_grantRequests (s : State) (t : Word) : (s.redirect t).grantRequests = s.grantRequests := rfl
@[simp] theorem State.redirect_simTime (s : State) (t : Word) : (s.redirect t).simTime = s.simTime := rfl
@[simp] theorem State.redirect_telemetry (s : State) (t : Word) : (s.redirect t).telemetry = s.telemetry := rfl
@[simp] theorem State.redirect_cfg (s : State) (t : Word) : (s.redirect t).cfg = s.cfg := rfl

/-! ### writeReg -/

@[simp] theorem State.writeReg_pc (s : State) (r : Reg) (v : Word) : (s.writeReg r v).pc = s.pc := rfl
@[simp] theorem State.writeReg_mem (s : State) (r : Reg) (v : Word) : (s.writeReg r v).mem = s.mem := rfl
@[simp] theorem State.writeReg_loopState (s : State) (r : Reg) (v : Word) : (s.writeReg r v).loopState = s.loopState := rfl
@[simp] theorem State.writeReg_faultInfo (s : State) (r : Reg) (v : Word) : (s.writeReg r v).faultInfo = s.faultInfo := rfl
@[simp] theorem State.writeReg_stopRequested (s : State) (r : Reg) (v : Word) : (s.writeReg r v).stopRequested = s.stopRequested := rfl
@[simp] theorem State.writeReg_grant (s : State) (r : Reg) (v : Word) : (s.writeReg r v).grant = s.grant := rfl
@[simp] theorem State.writeReg_grantRequests (s : State) (r : Reg) (v : Word) : (s.writeReg r v).grantRequests = s.grantRequests := rfl
@[simp] theorem State.writeReg_simTime (s : State) (r : Reg) (v : Word) : (s.writeReg r v).simTime = s.simTime := rfl
@[simp] theorem State.writeReg_telemetry (s : State) (r : Reg) (v : Word) : (s.writeReg r v).telemetry = s.telemetry := rfl
@[simp] theorem State.writeReg_cfg (s : State) (r : Reg) (v : Word) : (s.writeReg r v).cfg = s.cfg := rfl

/-! ### chargeAccess -/

@[simp] theorem State.chargeAccess_regs (s : State) : (s.chargeAccess).regs = s.regs := rfl
@[simp] theorem State.chargeAccess_pc (s : State) : (s.chargeAccess).pc = s.pc := rfl
@[simp] theorem State.chargeAccess_mem (s : State) : (s.chargeAccess).mem = s.mem := rfl
@[simp] theorem State.chargeAccess_loopState (s : State) : (s.chargeAccess).loopState = s.loopState := rfl
@[simp] theorem State.chargeAccess_faultInfo (s : State) : (s.chargeAccess).faultInfo = s.faultInfo := rfl
@[simp] theorem State.chargeAccess_stopRequested (s : State) : (s.chargeAccess).stopRequested = s.stopRequested := rfl
@[simp] theorem State.chargeAccess_grant (s : State) : (s.chargeAccess).grant = s.grant := rfl
@[simp] theorem State.chargeAccess_grantRequests (s : State) : (s.chargeAccess).grantRequests = s.grantRequests := rfl
@[simp] theorem State.chargeAccess_simTime (s : State) : (s.chargeAccess).simTime = s.simTime + s.cfg.accessLatency := rfl
@[simp] theorem State.chargeAccess_telemetry (s : State) : (s.chargeAccess).telemetry = s.telemetry := rfl
@[simp] theorem State.chargeAccess_cfg (s : State) : (s.chargeAccess).cfg = s.cfg := rfl

/-! ### takeFault -/

@[simp] theorem State.takeFault_regs (s : State) (f : Fault) : (s.takeFault f).regs = s.regs := rfl
@[simp] theorem State.takeFault_pc (s : State) (f : Fault) : (s.takeFault f).pc = s.pc := rfl
@[simp] theorem State.takeFault_mem (s : State) (f : Fault) : (s.takeFault f).mem = s.mem := rfl
@[simp] theorem State.takeFault_loopState (s : State) (f : Fault) : (s.takeFault f).loopState = .faulted := rfl
@[simp] theorem State.takeFault_faultInfo (s : State) (f : Fault) : (s.takeFault f).faultInfo = some f := rfl
@[simp] theorem State.takeFault_stopRequested (s : State) (f : Fault) : (s.takeFault f).stopRequested = s.stopRequested := rfl
@[simp] theorem State.takeFault_grant (s : State) (f : Fault) : (s.takeFault f).grant = s.grant := rfl
@[simp] theorem State.takeFault_grantRequests (s : State) (f : Fault) : (s.takeFault f).grantRequests = s.grantRequests := rfl
@[simp] theorem State.takeFault_simTime (s : State) (f : Fault) : (s.takeFault f).simTime = s.simTime := rfl
@[simp] theorem State.takeFault_telemetry (s : State) (f : Fault) : (s.takeFault f).telemetry = s.telemetry ++ [.faulted f] := rfl
@[simp] theorem State.takeFault_cfg (s : State) (f : Fault) : (s.takeFault f).cfg = s.cfg := rfl

/-! ### completeCycle -/

@[simp] theorem State.completeCycle_regs (s : State) (op : Tag) : (s.completeCycle op).regs = s.regs := rfl
@[simp] theorem State.completeCycle_pc (s : State) (op : Tag) : (s.completeCycle op).pc = s.pc := rfl
@[simp] theorem State.completeCycle_mem (s : State) (op : Tag) : (s.completeCycle op).mem = s.mem := rfl
@[simp] theorem State.completeCycle_loopState (s : State) (op : Tag) : (s.completeCycle op).loopState = s.loopState := rfl
@[simp] theorem State.completeCycle_faultInfo (s : State) (op : Tag) : (s.completeCycle op).faultInfo = s.faultInfo := rfl
@[simp] theorem State.completeCycle_stopRequested (s : State) (op : Tag) : (s.completeCycle op).stopRequested = s.stopRequested := rfl
@[simp] theorem State.completeCycle_grant (s : State) (op : Tag) : (s.completeCycle op).grant = s.grant := rfl
@[simp] theorem State.completeCycle_grantRequests (s : State) (op : Tag) : (s.completeCycle op).grantRequests = s.grantRequests := rfl
@[simp] theorem State.completeCycle_simTime (s : State) (op : Tag) : (s.completeCycle op).simTime = s.simTime + s.cfg.cycleTime := rfl
@[simp] theorem State.completeCycle_telemetry (s : State) (op : Tag) : (s.completeCycle op).telemetry = s.telemetry ++ [.executed op] := rfl
@[simp] theorem State.completeCycle_cfg (s : State) (op : Tag) : (s.completeCycle op).cfg = s.cfg := rfl

/-! ### halt -/

@[simp] theorem State.halt_regs (s : State) : (s.halt).regs = s.regs := rfl
@[simp] theorem State.halt_pc (s : State) : (s.halt).pc = s.pc := rfl
@[simp] theorem State.halt_mem (s : State) : (s.halt).mem = s.mem := rfl
@[simp] theorem State.halt_loopState (s : State) : (s.halt).loopState = .halted := rfl
@[simp] theorem State.halt_faultInfo (s : State) : (s.halt).faultInfo = s.faultInfo := rfl
@[simp] theorem State.halt_stopRequested (s : State) : (s.halt).stopRequested = s.stopRequested := rfl
@[simp] theorem State.halt_grant (s : State) : (s.halt).grant = s.grant := rfl
@[simp] theorem State.halt_grantRequests (s : State) : (s.halt).grantRequests = s.grantRequests := rfl
@[simp] theorem State.halt_simTime (s : State) : (s.halt).simTime = s.simTime := rfl
@[simp] theorem State.halt_telemetry (s : State) : (s.halt).telemetry = s.telemetry := rfl
@[simp] theorem State.halt_cfg (s : State) : (s.halt).cfg = s.cfg := rfl

/-! ### placeAtPc -/

@[simp] theorem State.placeAtPc_regs (s : State) (w : Word) : (s.placeAtPc w).regs = s.regs := rfl
@[simp] theorem State.placeAtPc_pc (s : State) (w : Word) : (s.placeAtPc w).pc = s.pc := rfl
@[simp] theorem State.placeAtPc_mem (s : State) (w : Word) : (s.placeAtPc w).mem = s.mem.write s.pc.toNat w .four := rfl
@[simp] theorem State.placeAtPc_loopState (s : State) (w : Word) : (s.placeAtPc w).loopState = s.loopState := rfl
@[simp] theorem State.placeAtPc_faultInfo (s : State) (w : Word) : (s.placeAtPc w).faultInfo = s.faultInfo := rfl
@[simp] theorem State.placeAtPc_stopRequested (s : State) (w : Word) : (s.placeAtPc w).stopRequested = s.stopRequested := rfl
@[simp] theorem State.placeAtPc_grant (s : State) (w : Word) : (s.placeAtPc w).grant = s.grant := rfl
@[simp] theorem State.placeAtPc_grantRequests (s : State) (w : Word) : (s.placeAtPc w).grantRequests = s.grantRequests := rfl
@[simp] theorem State.placeAtPc_simTime (s : State) (w : Word) : (s.placeAtPc w).simTime = s.simTime := rfl
@[simp] theorem State.placeAtPc_telemetry (s : State) (w : Word) : (s.placeAtPc w).telemetry = s.telemetry := rfl
@[simp] theorem State.placeAtPc_cfg (s : State) (w : Word) : (s.placeAtPc w).cfg = s.cfg := rfl

/-! ### resetWith -/

@[simp] theorem State.resetWith_pc (cfg : Config) (image : Memory) : (State.resetWith cfg image).pc = cfg.resetVector := rfl
@[simp] theorem State.resetWith_mem (cfg : Config) (image : Memory) : (State.resetWith cfg image).mem = image := rfl
@[simp] theorem State.resetWith_loopState (cfg : Config) (image : Memory) : (State.resetWith cfg image).loopState = .running := rfl
@[simp] theorem State.resetWith_faultInfo (cfg : Config) (image : Memory) : (State.resetWith cfg image).faultInfo = none := rfl
@[simp] theorem State.resetWith_stopRequested (cfg : Config) (image : Memory) : (State.resetWith cfg image).stopRequested = false := rfl
@[simp] theorem State.resetWith_grant (cfg : Config) (image : Memory) : (State.resetWith cfg image).grant = none := rfl
@[simp] theorem State.resetWith_grantRequests (cfg : Config) (image : Memory) : (State.resetWith cfg image).grantRequests = [] := rfl
@[simp] theorem State.resetWith_simTime (cfg : Config) (image : Memory) : (State.resetWith cfg image).simTime = 0 := rfl
@[simp] theorem State.resetWith_telemetry (cfg : Config) (image : Memory) : (State.resetWith cfg image).telemetry = [] := rfl
@[simp] theorem State.resetWith_cfg (cfg : Config) (image : Memory) : (State.resetWith cfg image).cfg = cfg := rfl

/-! ### Reading a register after an update of another field -/

@[simp] theorem State.advance_readReg (s : State) (q : Reg) : (s.advance).readReg q = s.readReg q := rfl
@[simp] theorem State.redirect_readReg (s : State) (t : Word) (q : Reg) : (s.redirect t).readReg q = s.readReg q := rfl
@[simp] theorem State.chargeAccess_readReg (s : State) (q : Reg) : (s.chargeAccess).readReg q = s.readReg q := rfl
@[simp] theorem State.takeFault_readReg (s : State) (f : Fault) (q : Reg) : (s.takeFault f).readReg q = s.readReg q := rfl
@[simp] theorem State.completeCycle_readReg (s : State) (op : Tag) (q : Reg) : (s.completeCycle op).readReg q = s.readReg q := rfl
@[simp] theorem State.halt_readReg (s : State) (q : Reg) : (s.halt).readReg q = s.readReg q := rfl
@[simp] theorem State.placeAtPc_readReg (s : State) (w : Word) (q : Reg) : (s.placeAtPc w).readReg q = s.readReg q := rfl

end Sys2Proof.Machine
end

