-- ==== Sys2Proof/Laws/Registers.lean ====
section
/-! SUPPORT. The register file: what a read answers after a write, and after reset. -/

namespace Sys2Proof.Machine

@[simp] theorem State.readReg_zero (s : State) : s.readReg 0#5 = 0#32 := rfl

/-- Two different registers other than x0 lie in different cells. -/
theorem cell_ne {q r : Reg} (hq : q ≠ 0#5) (hr : r ≠ 0#5) (h : q ≠ r) : r.toNat - 1 ≠ q.toNat - 1 := by
  have h1 : q.toNat ≠ 0 := fun e => hq (BitVec.eq_of_toNat_eq e)
  have h2 : r.toNat ≠ 0 := fun e => hr (BitVec.eq_of_toNat_eq e)
  have h3 : q.toNat ≠ r.toNat := fun e => h (BitVec.eq_of_toNat_eq e)
  omega

/-- Everything about one register written. -/
@[simp] theorem State.readReg_writeReg (s : State) (r : Reg) (v : Word) (q : Reg) :
    (s.writeReg r v).readReg q = if q = r ∧ r ≠ 0#5 then v else s.readReg q := by
  unfold State.readReg State.writeReg
  by_cases hr : r = 0#5
  · simp only [hr, if_true, ne_eq, not_true_eq_false, and_false, if_false]
  · simp only [hr, if_false, ne_eq, not_false_eq_true, and_true]
    by_cases hq : q = 0#5
    · rw [if_pos hq, if_neg (fun e => hr (e.symm.trans hq)), if_pos hq]
    · by_cases h : q = r
      · subst h
        rw [if_neg hq, if_pos rfl]
        exact Vector.getElem_set_self _
      · rw [if_neg hq, if_neg h, if_neg hq]
        exact Vector.getElem_set_ne _ _ (cell_ne hq hr h)

theorem State.writeReg_zero (s : State) (v : Word) : s.writeReg 0#5 v = s := rfl

@[simp] theorem State.resetWith_readReg (cfg : Config) (image : Memory) (q : Reg) :
    (State.resetWith cfg image).readReg q = 0#32 := by
  unfold State.readReg State.resetWith
  split
  · rfl
  · exact Vector.getElem_replicate _

/-- The register file is what its reads answer. -/
theorem State.regs_ext {s t : State} (h : ∀ q, t.readReg q = s.readReg q) : t.regs = s.regs := by
  refine Vector.ext fun i hi => ?_
  have hlt : i + 1 < 2 ^ 5 := by omega
  have hne : BitVec.ofNat 5 (i + 1) ≠ 0#5 := fun e => by
    have := congrArg BitVec.toNat e
    rw [BitVec.toNat_ofNat, Nat.mod_eq_of_lt hlt] at this
    exact Nat.succ_ne_zero i this
  have hq := h (BitVec.ofNat 5 (i + 1))
  unfold State.readReg at hq
  simp only [hne, if_false, BitVec.toNat_ofNat, Nat.mod_eq_of_lt hlt, Nat.add_sub_cancel] at hq
  exact hq

end Sys2Proof.Machine
end

