-- ==== Sys2Proof/Laws/Access.lean ====
section
/-! SUPPORT. The accesses, the fetch path and the templates of the families: what each can do. -/

namespace Sys2Proof.Machine

theorem State.inBounds_iff (s : State) (a : Word) (n : Len) : s.inBounds a n = true ↔ a.toNat + n.bytes ≤ s.cfg.memSize := by
  simp [State.inBounds]

@[simp] theorem State.chargeAccess_inBounds (s : State) (a : Word) (n : Len) :
    s.chargeAccess.inBounds a n = s.inBounds a n := rfl

@[simp] theorem State.chargeAccess_readAccess (s : State) (a : Word) (n : Len) :
    s.chargeAccess.readAccess a n = s.readAccess a n := rfl

/-! ### Timed transactions -/

@[simp] theorem State.timedRead_fst (s : State) (a : Word) (n : Len) : (s.timedRead a n).1 = s.chargeAccess := rfl

theorem State.timedRead_in {s : State} {a : Word} {n : Len} (h : s.inBounds a n = true) :
    s.timedRead a n = (s.chargeAccess, .ok (s.mem.read a.toNat n)) := by
  simp [State.timedRead, State.readAccess, h]

theorem State.timedRead_out {s : State} {a : Word} {n : Len} (h : s.inBounds a n = false) :
    s.timedRead a n = (s.chargeAccess, .error (.accessFault s.pc a n .read)) := by
  simp [State.timedRead, State.readAccess, h]

theorem State.timedWrite_in {s : State} {a : Word} {n : Len} (h : s.inBounds a n = true) (v : Word) :
    s.timedWrite a n v = ({ s.chargeAccess with mem := s.mem.write a.toNat v n }, none) := by
  simp [State.timedWrite, State.writeAccess, h]

theorem State.timedWrite_out {s : State} {a : Word} {n : Len} (h : s.inBounds a n = false) (v : Word) :
    s.timedWrite a n v = (s.chargeAccess, some (.accessFault s.pc a n .write)) := by
  simp [State.timedWrite, State.writeAccess, h]

/-! ### The fetch path changes the grant, the choices left and sim_time, and nothing else -/

/-- The three things renewing the grant can do (20_memory.md R82). -/
theorem State.renewGrant_cases (s : State) :
    s.renewGrant = s ∨ (∃ rest, s.renewGrant = { s with grantRequests := rest }) ∨
      ∃ rest, s.renewGrant = { s with grant := some s.wholeMemory, grantRequests := rest } := by
  unfold State.renewGrant
  split
  · exact .inl rfl
  · split
    · exact .inl rfl
    · exact .inr (.inr ⟨_, rfl⟩)
    · exact .inr (.inl ⟨_, rfl⟩)

/-- The state after a fetch is the state before it with a new grant, new choices and a new sim_time. -/
theorem State.fetch_fst_eq (s : State) :
    ∃ g rs time, s.fetch.1 = { s with grant := g, grantRequests := rs, simTime := time } ∧
      (g = s.grant ∨ g = some s.wholeMemory) := by
  have hr := s.renewGrant_cases
  unfold State.fetch
  dsimp only
  split
  · rcases hr with h | ⟨rest, h⟩ | ⟨rest, h⟩ <;> rw [h]
    · exact ⟨s.grant, s.grantRequests, s.simTime, rfl, .inl rfl⟩
    · exact ⟨s.grant, rest, s.simTime, rfl, .inl rfl⟩
    · exact ⟨some s.wholeMemory, rest, s.simTime, rfl, .inr rfl⟩
  · rcases hr with h | ⟨rest, h⟩ | ⟨rest, h⟩ <;> rw [h, State.timedRead_fst]
    · exact ⟨s.grant, s.grantRequests, _, rfl, .inl rfl⟩
    · exact ⟨s.grant, rest, _, rfl, .inl rfl⟩
    · exact ⟨some s.wholeMemory, rest, _, rfl, .inr rfl⟩

@[simp] theorem State.fetch_fst_regs (s : State) : s.fetch.1.regs = s.regs := by
  obtain ⟨_, _, _, h, _⟩ := s.fetch_fst_eq; rw [h]
@[simp] theorem State.fetch_fst_pc (s : State) : s.fetch.1.pc = s.pc := by
  obtain ⟨_, _, _, h, _⟩ := s.fetch_fst_eq; rw [h]
@[simp] theorem State.fetch_fst_mem (s : State) : s.fetch.1.mem = s.mem := by
  obtain ⟨_, _, _, h, _⟩ := s.fetch_fst_eq; rw [h]
@[simp] theorem State.fetch_fst_loopState (s : State) : s.fetch.1.loopState = s.loopState := by
  obtain ⟨_, _, _, h, _⟩ := s.fetch_fst_eq; rw [h]
@[simp] theorem State.fetch_fst_faultInfo (s : State) : s.fetch.1.faultInfo = s.faultInfo := by
  obtain ⟨_, _, _, h, _⟩ := s.fetch_fst_eq; rw [h]
@[simp] theorem State.fetch_fst_stopRequested (s : State) : s.fetch.1.stopRequested = s.stopRequested := by
  obtain ⟨_, _, _, h, _⟩ := s.fetch_fst_eq; rw [h]
@[simp] theorem State.fetch_fst_telemetry (s : State) : s.fetch.1.telemetry = s.telemetry := by
  obtain ⟨_, _, _, h, _⟩ := s.fetch_fst_eq; rw [h]
@[simp] theorem State.fetch_fst_cfg (s : State) : s.fetch.1.cfg = s.cfg := by
  obtain ⟨_, _, _, h, _⟩ := s.fetch_fst_eq; rw [h]
@[simp] theorem State.fetch_fst_readReg (s : State) (q : Reg) : s.fetch.1.readReg q = s.readReg q := by
  obtain ⟨_, _, _, h, _⟩ := s.fetch_fst_eq; rw [h]; rfl

/-! ### The templates of the families -/

theorem State.load_in {s : State} {n : Len} {ea : Word} (h : s.inBounds ea n = true) (ext : Word → Word) (rd : Reg) :
    s.load n ext rd ea = .next (s.chargeAccess.writeReg rd (ext (s.mem.read ea.toNat n))).advance := by
  simp [State.load, State.timedRead_in h]

theorem State.load_out {s : State} {n : Len} {ea : Word} (h : s.inBounds ea n = false) (ext : Word → Word) (rd : Reg) :
    s.load n ext rd ea = .next (s.chargeAccess.takeFault (.accessFault s.pc ea n .read)) := by
  simp [State.load, State.timedRead_out h]

theorem State.store_in {s : State} {n : Len} {ea : Word} (h : s.inBounds ea n = true) (v : Word) :
    s.store n ea v = .next (State.advance { s.chargeAccess with mem := s.mem.write ea.toNat v n }) := by
  simp [State.store, State.timedWrite_in h]

theorem State.store_out {s : State} {n : Len} {ea : Word} (h : s.inBounds ea n = false) (v : Word) :
    s.store n ea v = .next (s.chargeAccess.takeFault (.accessFault s.pc ea n .write)) := by
  simp [State.store, State.timedWrite_out h]

/-- A branch ends at one of two addresses and changes nothing else. -/
theorem State.branch_eq (s : State) (cond : Bool) (offset : Word) :
    s.branch cond offset = .next (s.redirect (if cond then s.pc + offset else s.pc + 4)) := by
  cases cond <;> rfl

end Sys2Proof.Machine
end

