-- ==== Sys2Proof/Laws/Encoding.lean ====
section
/-! SUPPORT. The fields of an encoded word, format by format: what each accessor reads back. -/

namespace Sys2Proof

/-- A slice that lies in the high part of a concatenation. -/
theorem extract_high {n m : Nat} (x : BitVec n) (y : BitVec m) (k l : Nat) :
    (x ++ y).extractLsb' (m + k) l = x.extractLsb' k l := by
  refine BitVec.eq_of_getLsbD_eq fun i hi => ?_
  rw [BitVec.getLsbD_extractLsb', BitVec.getLsbD_extractLsb', Nat.add_assoc, Machine.getLsbD_append_high]

/-- A slice that is the low part of a concatenation. -/
theorem extract_low {n m : Nat} (x : BitVec n) (y : BitVec m) : (x ++ y).extractLsb' 0 m = y :=
  BitVec.extractLsb'_append_eq_right

/-- A slice that is the whole high part of a concatenation. -/
theorem extract_top {n m : Nat} (x : BitVec n) (y : BitVec m) : (x ++ y).extractLsb' m n = x :=
  BitVec.extractLsb'_append_eq_left

/-- A slice put back where it was cut: two adjacent slices make one. -/
theorem extract_join {n : Nat} (x : BitVec n) (k l l' : Nat) :
    x.extractLsb' (k + l) l' ++ x.extractLsb' k l = x.extractLsb' k (l' + l) :=
  BitVec.extractLsb'_append_extractLsb'_eq_extractLsb' rfl

theorem extract_all {n : Nat} (x : BitVec n) : x.extractLsb' 0 n = x := by
  refine BitVec.eq_of_getLsbD_eq fun i hi => ?_
  simp [hi]

/-- A bit above the low part: a one-bit slice read as a Bool. -/
theorem getLsbD_high {n m : Nat} (x : BitVec n) (y : BitVec m) (k : Nat) :
    (x ++ y).getLsbD (m + k) = x.getLsbD k := Machine.getLsbD_append_high x y k

/-! ### R format -/

section RFormat
variable (f7 : BitVec 7) (rs2 rs1 rd : Reg) (f3 : BitVec 3) (op : BitVec 7)

@[simp] theorem opcodeOf_encodeR : opcodeOf (encodeR f7 rs2 rs1 f3 rd op) = op := extract_low _ _
@[simp] theorem rdOf_encodeR : rdOf (encodeR f7 rs2 rs1 f3 rd op) = rd :=
  (extract_high _ _ 0 5).trans (extract_low _ _)
@[simp] theorem funct3Of_encodeR : funct3Of (encodeR f7 rs2 rs1 f3 rd op) = f3 :=
  (extract_high _ _ 5 3).trans ((extract_high _ _ 0 3).trans (extract_low _ _))
@[simp] theorem rs1Of_encodeR : rs1Of (encodeR f7 rs2 rs1 f3 rd op) = rs1 :=
  (extract_high _ _ 8 5).trans ((extract_high _ _ 3 5).trans ((extract_high _ _ 0 5).trans (extract_low _ _)))
@[simp] theorem rs2Of_encodeR : rs2Of (encodeR f7 rs2 rs1 f3 rd op) = rs2 :=
  (extract_high _ _ 13 5).trans ((extract_high _ _ 8 5).trans ((extract_high _ _ 5 5).trans
    ((extract_high _ _ 0 5).trans (extract_low _ _))))
@[simp] theorem funct7Of_encodeR : funct7Of (encodeR f7 rs2 rs1 f3 rd op) = f7 :=
  (extract_high _ _ 18 7).trans ((extract_high _ _ 13 7).trans ((extract_high _ _ 10 7).trans
    ((extract_high _ _ 5 7).trans (extract_top _ _))))
@[simp] theorem inst30Of_encodeR : inst30Of (encodeR f7 rs2 rs1 f3 rd op) = f7.getLsbD 5 :=
  (getLsbD_high _ _ 23).trans ((getLsbD_high _ _ 18).trans ((getLsbD_high _ _ 15).trans
    ((getLsbD_high _ _ 10).trans (getLsbD_high _ _ 5))))

end RFormat

/-! ### I format -/

section IFormat
variable (imm : BitVec 12) (rs1 rd : Reg) (f3 : BitVec 3) (op : BitVec 7)

@[simp] theorem opcodeOf_encodeI : opcodeOf (encodeI imm rs1 f3 rd op) = op := extract_low _ _
@[simp] theorem rdOf_encodeI : rdOf (encodeI imm rs1 f3 rd op) = rd :=
  (extract_high _ _ 0 5).trans (extract_low _ _)
@[simp] theorem funct3Of_encodeI : funct3Of (encodeI imm rs1 f3 rd op) = f3 :=
  (extract_high _ _ 5 3).trans ((extract_high _ _ 0 3).trans (extract_low _ _))
@[simp] theorem rs1Of_encodeI : rs1Of (encodeI imm rs1 f3 rd op) = rs1 :=
  (extract_high _ _ 8 5).trans ((extract_high _ _ 3 5).trans ((extract_high _ _ 0 5).trans (extract_low _ _)))
@[simp] theorem fieldI_encodeI : fieldI (encodeI imm rs1 f3 rd op) = imm :=
  (extract_high _ _ 13 12).trans ((extract_high _ _ 8 12).trans ((extract_high _ _ 5 12).trans (extract_top _ _)))

end IFormat

/-! ### S format -/

section SFormat
variable (imm : BitVec 12) (rs2 rs1 : Reg) (f3 : BitVec 3) (op : BitVec 7)

@[simp] theorem opcodeOf_encodeS : opcodeOf (encodeS imm rs2 rs1 f3 op) = op := extract_low _ _
@[simp] theorem funct3Of_encodeS : funct3Of (encodeS imm rs2 rs1 f3 op) = f3 :=
  (extract_high _ _ 5 3).trans ((extract_high _ _ 0 3).trans (extract_low _ _))
@[simp] theorem rs1Of_encodeS : rs1Of (encodeS imm rs2 rs1 f3 op) = rs1 :=
  (extract_high _ _ 8 5).trans ((extract_high _ _ 3 5).trans ((extract_high _ _ 0 5).trans (extract_low _ _)))
@[simp] theorem rs2Of_encodeS : rs2Of (encodeS imm rs2 rs1 f3 op) = rs2 :=
  (extract_high _ _ 13 5).trans ((extract_high _ _ 8 5).trans ((extract_high _ _ 5 5).trans
    ((extract_high _ _ 0 5).trans (extract_low _ _))))
@[simp] theorem fieldS_encodeS : fieldS (encodeS imm rs2 rs1 f3 op) = imm := by
  have hi : (encodeS imm rs2 rs1 f3 op).extractLsb' 25 7 = imm.extractLsb' 5 7 :=
    (extract_high _ _ 18 7).trans ((extract_high _ _ 13 7).trans ((extract_high _ _ 10 7).trans
      ((extract_high _ _ 5 7).trans (extract_top _ _))))
  have lo : (encodeS imm rs2 rs1 f3 op).extractLsb' 7 5 = imm.extractLsb' 0 5 :=
    (extract_high _ _ 0 5).trans (extract_low _ _)
  unfold fieldS
  rw [hi, lo]
  exact (extract_join imm 0 5 7).trans (extract_all imm)

end SFormat

/-! ### B format -/

section BFormat
variable (imm : BitVec 13) (rs2 rs1 : Reg) (f3 : BitVec 3) (op : BitVec 7)

@[simp] theorem opcodeOf_encodeB : opcodeOf (encodeB imm rs2 rs1 f3 op) = op := extract_low _ _
@[simp] theorem funct3Of_encodeB : funct3Of (encodeB imm rs2 rs1 f3 op) = f3 :=
  (extract_high _ _ 5 3).trans ((extract_high _ _ 4 3).trans ((extract_high _ _ 0 3).trans (extract_low _ _)))
@[simp] theorem rs1Of_encodeB : rs1Of (encodeB imm rs2 rs1 f3 op) = rs1 :=
  (extract_high _ _ 8 5).trans ((extract_high _ _ 7 5).trans ((extract_high _ _ 3 5).trans
    ((extract_high _ _ 0 5).trans (extract_low _ _))))
@[simp] theorem rs2Of_encodeB : rs2Of (encodeB imm rs2 rs1 f3 op) = rs2 :=
  (extract_high _ _ 13 5).trans ((extract_high _ _ 12 5).trans ((extract_high _ _ 8 5).trans
    ((extract_high _ _ 5 5).trans ((extract_high _ _ 0 5).trans (extract_low _ _)))))

/-- The offset comes back when its bit 0, which the word does not hold, is 0. -/
theorem fieldB_encodeB (h : imm.getLsbD 0 = false) : fieldB (encodeB imm rs2 rs1 f3 op) = imm := by
  have e12 : (encodeB imm rs2 rs1 f3 op).extractLsb' 31 1 = imm.extractLsb' 12 1 :=
    (extract_high _ _ 24 1).trans ((extract_high _ _ 23 1).trans ((extract_high _ _ 19 1).trans
      ((extract_high _ _ 16 1).trans ((extract_high _ _ 11 1).trans ((extract_high _ _ 6 1).trans (extract_top _ _))))))
  have e11 : (encodeB imm rs2 rs1 f3 op).extractLsb' 7 1 = imm.extractLsb' 11 1 :=
    (extract_high _ _ 0 1).trans (extract_low _ _)
  have e5 : (encodeB imm rs2 rs1 f3 op).extractLsb' 25 6 = imm.extractLsb' 5 6 :=
    (extract_high _ _ 18 6).trans ((extract_high _ _ 17 6).trans ((extract_high _ _ 13 6).trans
      ((extract_high _ _ 10 6).trans ((extract_high _ _ 5 6).trans ((extract_high _ _ 0 6).trans (extract_low _ _))))))
  have e1 : (encodeB imm rs2 rs1 f3 op).extractLsb' 8 4 = imm.extractLsb' 1 4 :=
    (extract_high _ _ 1 4).trans ((extract_high _ _ 0 4).trans (extract_low _ _))
  have e0 : imm.extractLsb' 0 1 = 0#1 := by
    refine BitVec.eq_of_getLsbD_eq fun i hi => ?_
    obtain rfl : i = 0 := by omega
    simpa using h
  unfold fieldB
  rw [e12, e11, e5, e1, ← e0]
  have j1 : imm.extractLsb' 12 1 ++ imm.extractLsb' 11 1 = imm.extractLsb' 11 2 := extract_join imm 11 1 1
  have j2 : imm.extractLsb' 11 2 ++ imm.extractLsb' 5 6 = imm.extractLsb' 5 8 := extract_join imm 5 6 2
  have j3 : imm.extractLsb' 5 8 ++ imm.extractLsb' 1 4 = imm.extractLsb' 1 12 := extract_join imm 1 4 8
  rw [j1, j2, j3]
  exact (extract_join imm 0 1 12).trans (extract_all imm)

end BFormat

/-! ### U format -/

section UFormat
variable (imm : BitVec 20) (rd : Reg) (op : BitVec 7)

@[simp] theorem opcodeOf_encodeU : opcodeOf (encodeU imm rd op) = op := extract_low _ _
@[simp] theorem rdOf_encodeU : rdOf (encodeU imm rd op) = rd := (extract_high _ _ 0 5).trans (extract_low _ _)
@[simp] theorem fieldU_encodeU : fieldU (encodeU imm rd op) = imm := (extract_high _ _ 5 20).trans (extract_top _ _)

end UFormat

/-! ### J format -/

section JFormat
variable (imm : BitVec 21) (rd : Reg) (op : BitVec 7)

@[simp] theorem opcodeOf_encodeJ : opcodeOf (encodeJ imm rd op) = op := extract_low _ _
@[simp] theorem rdOf_encodeJ : rdOf (encodeJ imm rd op) = rd := (extract_high _ _ 0 5).trans (extract_low _ _)

theorem fieldJ_encodeJ (h : imm.getLsbD 0 = false) : fieldJ (encodeJ imm rd op) = imm := by
  have e20 : (encodeJ imm rd op).extractLsb' 31 1 = imm.extractLsb' 20 1 :=
    (extract_high _ _ 24 1).trans ((extract_high _ _ 19 1).trans ((extract_high _ _ 11 1).trans
      ((extract_high _ _ 10 1).trans (extract_top _ _))))
  have e12 : (encodeJ imm rd op).extractLsb' 12 8 = imm.extractLsb' 12 8 :=
    (extract_high _ _ 5 8).trans ((extract_high _ _ 0 8).trans (extract_low _ _))
  have e11 : (encodeJ imm rd op).extractLsb' 20 1 = imm.extractLsb' 11 1 :=
    (extract_high _ _ 13 1).trans ((extract_high _ _ 8 1).trans ((extract_high _ _ 0 1).trans (extract_low _ _)))
  have e1 : (encodeJ imm rd op).extractLsb' 21 10 = imm.extractLsb' 1 10 :=
    (extract_high _ _ 14 10).trans ((extract_high _ _ 9 10).trans ((extract_high _ _ 1 10).trans
      ((extract_high _ _ 0 10).trans (extract_low _ _))))
  have e0 : imm.extractLsb' 0 1 = 0#1 := by
    refine BitVec.eq_of_getLsbD_eq fun i hi => ?_
    obtain rfl : i = 0 := by omega
    simpa using h
  unfold fieldJ
  rw [e20, e12, e11, e1, ← e0]
  have j1 : imm.extractLsb' 20 1 ++ imm.extractLsb' 12 8 = imm.extractLsb' 12 9 := extract_join imm 12 8 1
  have j2 : imm.extractLsb' 12 9 ++ imm.extractLsb' 11 1 = imm.extractLsb' 11 10 := extract_join imm 11 1 9
  have j3 : imm.extractLsb' 11 10 ++ imm.extractLsb' 1 10 = imm.extractLsb' 1 20 := extract_join imm 1 10 10
  rw [j1, j2, j3]
  exact (extract_join imm 0 1 20).trans (extract_all imm)

end JFormat

/-! ### A word is its six fields -/

/-- Every word is the R-format word of its own fields. -/
theorem encodeR_fields (w : Word) :
    encodeR (funct7Of w) (rs2Of w) (rs1Of w) (funct3Of w) (rdOf w) (opcodeOf w) = w := by
  have j1 : w.extractLsb' 25 7 ++ w.extractLsb' 20 5 = w.extractLsb' 20 12 := extract_join w 20 5 7
  have j2 : w.extractLsb' 20 12 ++ w.extractLsb' 15 5 = w.extractLsb' 15 17 := extract_join w 15 5 12
  have j3 : w.extractLsb' 15 17 ++ w.extractLsb' 12 3 = w.extractLsb' 12 20 := extract_join w 12 3 17
  have j4 : w.extractLsb' 12 20 ++ w.extractLsb' 7 5 = w.extractLsb' 7 25 := extract_join w 7 5 20
  unfold encodeR funct7Of rs2Of rs1Of funct3Of rdOf opcodeOf
  rw [j1, j2, j3, j4]
  exact (extract_join w 0 7 25).trans (extract_all w)

/-- Two words are equal when their fields are. -/
theorem word_eq_iff (w v : Word) : w = v ↔ opcodeOf w = opcodeOf v ∧ funct3Of w = funct3Of v ∧
    funct7Of w = funct7Of v ∧ rdOf w = rdOf v ∧ rs1Of w = rs1Of v ∧ rs2Of w = rs2Of v := by
  constructor
  · rintro rfl; exact ⟨rfl, rfl, rfl, rfl, rfl, rfl⟩
  · rintro ⟨h1, h2, h3, h4, h5, h6⟩
    rw [← encodeR_fields w, ← encodeR_fields v, h1, h2, h3, h4, h5, h6]

/-- A mask test, field by field. -/
theorem masked_eq_iff (w m p : Word) : w &&& m = p ↔ opcodeOf w &&& opcodeOf m = opcodeOf p ∧
    funct3Of w &&& funct3Of m = funct3Of p ∧ funct7Of w &&& funct7Of m = funct7Of p ∧
    rdOf w &&& rdOf m = rdOf p ∧ rs1Of w &&& rs1Of m = rs1Of p ∧ rs2Of w &&& rs2Of m = rs2Of p := by
  rw [word_eq_iff]
  simp only [opcodeOf, funct3Of, funct7Of, rdOf, rs1Of, rs2Of, BitVec.extractLsb'_and]

/-- inst[30] is bit 5 of funct7 (R118). -/
theorem inst30Of_eq (w : Word) : inst30Of w = (funct7Of w).getLsbD 5 := by
  unfold inst30Of funct7Of
  rw [BitVec.getLsbD_extractLsb']
  rfl

/-- The mask 0x7F tests the opcode. -/
theorem masked_op (w p : Word) (h : p = encodeR 0#7 0#5 0#5 0#3 0#5 (opcodeOf p)) :
    w &&& 0x0000007F#32 = p ↔ opcodeOf w = opcodeOf p := by
  have m : (0x0000007F#32 : Word) = encodeR 0#7 0#5 0#5 0#3 0#5 (BitVec.allOnes 7) := rfl
  rw [masked_eq_iff, h, m]
  simp only [opcodeOf_encodeR, funct3Of_encodeR, funct7Of_encodeR, rdOf_encodeR, rs1Of_encodeR, rs2Of_encodeR,
    BitVec.and_zero, BitVec.and_allOnes, and_true]

/-- The mask 0x707F tests the opcode and funct3. -/
theorem masked_f3 (w p : Word) (h : p = encodeR 0#7 0#5 0#5 (funct3Of p) 0#5 (opcodeOf p)) :
    w &&& 0x0000707F#32 = p ↔ opcodeOf w = opcodeOf p ∧ funct3Of w = funct3Of p := by
  have m : (0x0000707F#32 : Word) = encodeR 0#7 0#5 0#5 (BitVec.allOnes 3) 0#5 (BitVec.allOnes 7) := rfl
  rw [masked_eq_iff, h, m]
  simp only [opcodeOf_encodeR, funct3Of_encodeR, funct7Of_encodeR, rdOf_encodeR, rs1Of_encodeR, rs2Of_encodeR,
    BitVec.and_zero, BitVec.and_allOnes, and_true]

/-- The mask 0xFE00707F tests the opcode, funct3 and funct7. -/
theorem masked_f7 (w p : Word) (h : p = encodeR (funct7Of p) 0#5 0#5 (funct3Of p) 0#5 (opcodeOf p)) :
    w &&& 0xFE00707F#32 = p ↔ opcodeOf w = opcodeOf p ∧ funct3Of w = funct3Of p ∧ funct7Of w = funct7Of p := by
  have m : (0xFE00707F#32 : Word) =
      encodeR (BitVec.allOnes 7) 0#5 0#5 (BitVec.allOnes 3) 0#5 (BitVec.allOnes 7) := rfl
  rw [masked_eq_iff, h, m]
  simp only [opcodeOf_encodeR, funct3Of_encodeR, funct7Of_encodeR, rdOf_encodeR, rs1Of_encodeR, rs2Of_encodeR,
    BitVec.and_zero, BitVec.and_allOnes, and_true]

/-- The mask 0x4000707F tests the opcode, funct3 and inst[30]. -/
theorem masked_b30 (w p : Word) (h : p = encodeR (funct7Of p &&& 0b0100000#7) 0#5 0#5 (funct3Of p) 0#5 (opcodeOf p)) :
    w &&& 0x4000707F#32 = p ↔ opcodeOf w = opcodeOf p ∧ funct3Of w = funct3Of p ∧ inst30Of w = inst30Of p := by
  have m : (0x4000707F#32 : Word) =
      encodeR 0b0100000#7 0#5 0#5 (BitVec.allOnes 3) 0#5 (BitVec.allOnes 7) := rfl
  have one : ∀ x : BitVec 7, x &&& 0b0100000#7 = if x.getLsbD 5 then 0b0100000#7 else 0#7 := by decide
  have bit (x y : BitVec 7) : x &&& 0b0100000#7 = y &&& 0b0100000#7 ↔ x.getLsbD 5 = y.getLsbD 5 := by
    rw [one, one]; cases x.getLsbD 5 <;> cases y.getLsbD 5 <;> decide
  rw [masked_eq_iff, inst30Of_eq w, inst30Of_eq p, ← bit, h, m]
  simp only [opcodeOf_encodeR, funct3Of_encodeR, funct7Of_encodeR, rdOf_encodeR, rs1Of_encodeR, rs2Of_encodeR,
    BitVec.and_zero, BitVec.and_allOnes, and_true, BitVec.and_assoc, BitVec.and_self]

/-! ### Every word is the word of its own fields, in each format -/

section OwnFields
variable (w : Word)

theorem encodeI_fields : encodeI (fieldI w) (rs1Of w) (funct3Of w) (rdOf w) (opcodeOf w) = w := by
  have j1 : w.extractLsb' 20 12 ++ w.extractLsb' 15 5 = w.extractLsb' 15 17 := extract_join w 15 5 12
  have j2 : w.extractLsb' 15 17 ++ w.extractLsb' 12 3 = w.extractLsb' 12 20 := extract_join w 12 3 17
  have j3 : w.extractLsb' 12 20 ++ w.extractLsb' 7 5 = w.extractLsb' 7 25 := extract_join w 7 5 20
  unfold encodeI fieldI rs1Of funct3Of rdOf opcodeOf
  rw [j1, j2, j3]
  exact (extract_join w 0 7 25).trans (extract_all w)

theorem encodeU_fields : encodeU (fieldU w) (rdOf w) (opcodeOf w) = w := by
  have j1 : w.extractLsb' 12 20 ++ w.extractLsb' 7 5 = w.extractLsb' 7 25 := extract_join w 7 5 20
  unfold encodeU fieldU rdOf opcodeOf
  rw [j1]
  exact (extract_join w 0 7 25).trans (extract_all w)

theorem encodeS_fields : encodeS (fieldS w) (rs2Of w) (rs1Of w) (funct3Of w) (opcodeOf w) = w := by
  have hi : (fieldS w).extractLsb' 5 7 = w.extractLsb' 25 7 := extract_top _ _
  have lo : (fieldS w).extractLsb' 0 5 = w.extractLsb' 7 5 := extract_low _ _
  unfold encodeS
  rw [hi, lo]
  exact encodeR_fields w

theorem encodeB_fields : encodeB (fieldB w) (rs2Of w) (rs1Of w) (funct3Of w) (opcodeOf w) = w := by
  have e12 : (fieldB w).extractLsb' 12 1 = w.extractLsb' 31 1 :=
    (extract_high _ _ 11 1).trans ((extract_high _ _ 7 1).trans ((extract_high _ _ 1 1).trans (extract_top _ _)))
  have e5 : (fieldB w).extractLsb' 5 6 = w.extractLsb' 25 6 :=
    (extract_high _ _ 4 6).trans ((extract_high _ _ 0 6).trans (extract_low _ _))
  have e1 : (fieldB w).extractLsb' 1 4 = w.extractLsb' 8 4 := (extract_high _ _ 0 4).trans (extract_low _ _)
  have e11 : (fieldB w).extractLsb' 11 1 = w.extractLsb' 7 1 :=
    (extract_high _ _ 10 1).trans ((extract_high _ _ 6 1).trans ((extract_high _ _ 0 1).trans (extract_low _ _)))
  have j1 : w.extractLsb' 31 1 ++ w.extractLsb' 25 6 = w.extractLsb' 25 7 := extract_join w 25 6 1
  have j2 : w.extractLsb' 25 7 ++ w.extractLsb' 20 5 = w.extractLsb' 20 12 := extract_join w 20 5 7
  have j3 : w.extractLsb' 20 12 ++ w.extractLsb' 15 5 = w.extractLsb' 15 17 := extract_join w 15 5 12
  have j4 : w.extractLsb' 15 17 ++ w.extractLsb' 12 3 = w.extractLsb' 12 20 := extract_join w 12 3 17
  have j5 : w.extractLsb' 12 20 ++ w.extractLsb' 8 4 = w.extractLsb' 8 24 := extract_join w 8 4 20
  have j6 : w.extractLsb' 8 24 ++ w.extractLsb' 7 1 = w.extractLsb' 7 25 := extract_join w 7 1 24
  unfold encodeB
  rw [e12, e5, e1, e11]
  unfold rs2Of rs1Of funct3Of opcodeOf
  rw [j1, j2, j3, j4, j5, j6]
  exact (extract_join w 0 7 25).trans (extract_all w)

theorem encodeJ_fields : encodeJ (fieldJ w) (rdOf w) (opcodeOf w) = w := by
  have e20 : (fieldJ w).extractLsb' 20 1 = w.extractLsb' 31 1 :=
    (extract_high _ _ 19 1).trans ((extract_high _ _ 9 1).trans ((extract_high _ _ 8 1).trans (extract_top _ _)))
  have e1 : (fieldJ w).extractLsb' 1 10 = w.extractLsb' 21 10 := (extract_high _ _ 0 10).trans (extract_low _ _)
  have e11 : (fieldJ w).extractLsb' 11 1 = w.extractLsb' 20 1 :=
    (extract_high _ _ 10 1).trans ((extract_high _ _ 0 1).trans (extract_low _ _))
  have e12 : (fieldJ w).extractLsb' 12 8 = w.extractLsb' 12 8 :=
    (extract_high _ _ 11 8).trans ((extract_high _ _ 1 8).trans ((extract_high _ _ 0 8).trans (extract_low _ _)))
  have j1 : w.extractLsb' 31 1 ++ w.extractLsb' 21 10 = w.extractLsb' 21 11 := extract_join w 21 10 1
  have j2 : w.extractLsb' 21 11 ++ w.extractLsb' 20 1 = w.extractLsb' 20 12 := extract_join w 20 1 11
  have j3 : w.extractLsb' 20 12 ++ w.extractLsb' 12 8 = w.extractLsb' 12 20 := extract_join w 12 8 12
  have j4 : w.extractLsb' 12 20 ++ w.extractLsb' 7 5 = w.extractLsb' 7 25 := extract_join w 7 5 20
  unfold encodeJ
  rw [e20, e1, e11, e12]
  unfold rdOf opcodeOf
  rw [j1, j2, j3, j4]
  exact (extract_join w 0 7 25).trans (extract_all w)

end OwnFields

end Sys2Proof
end

