-- ==== Sys2Proof/Laws/Decoding.lean ====
section
/-! SUPPORT. What the decoder answers, from the tag of the word. -/

namespace Sys2Proof

/-- A recognized word decodes to a well-formed instruction of its tag. -/
theorem decode_of_tag {w : Word} (h : tagOf w ≠ .unrecognized) :
    ∃ i, decode w = .instr i ∧ i.tag = tagOf w ∧ i.wf = true := by
  have hB : (fieldB w).getLsbD 0 = false := Machine.getLsbD_append_low _ (0#1) (by decide)
  have hJ : (fieldJ w).getLsbD 0 = false := Machine.getLsbD_append_low _ (0#1) (by decide)
  unfold decode
  cases ht : tagOf w
  case unrecognized => exact absurd ht h
  all_goals exact ⟨_, rfl, rfl, by simp only [Instr.wf, hB, hJ, Bool.not_false]⟩

/-- An unrecognized word. -/
theorem decode_of_unrecognized {w : Word} (h : tagOf w = .unrecognized) :
    decode w = .unrecognized (whyUnrecognized w) := by
  unfold decode; rw [h]

theorem tag_of_decode {w : Word} {i : Instr} (h : decode w = .instr i) :
    i.tag = tagOf w ∧ i.wf = true ∧ tagOf w ≠ .unrecognized := by
  by_cases hu : tagOf w = .unrecognized
  · rw [decode_of_unrecognized hu] at h; cases h
  · obtain ⟨j, hj, ht, hw⟩ := decode_of_tag hu
    rw [h] at hj
    cases hj
    exact ⟨ht, hw, hu⟩

/-- The bytes of a word decode as the word. -/
theorem decodeBytes_bytesOfWord (w : Word) (rest : List Byte) : decodeBytes (bytesOfWord w ++ rest) = (decode w, rest) := by
  have j1 : w.extractLsb' 24 8 ++ w.extractLsb' 16 8 = w.extractLsb' 16 16 := extract_join w 16 8 8
  have j2 : w.extractLsb' 16 16 ++ w.extractLsb' 8 8 = w.extractLsb' 8 24 := extract_join w 8 8 16
  have e : wordOfBytes (w.extractLsb' 0 8) (w.extractLsb' 8 8) (w.extractLsb' 16 8) (w.extractLsb' 24 8) = w := by
    unfold wordOfBytes
    rw [j1, j2]
    exact (extract_join w 0 8 24).trans (extract_all w)
  change (decode (wordOfBytes _ _ _ _), rest) = _
  rw [e]

/-- The keys of each tag: the opcode, and funct3 and inst[30] where the table looks at them. -/
theorem row_of_keys : ∀ (op : BitVec 7) (f3 : BitVec 3) (b : Bool), tagOfKeys op f3 b ≠ .unrecognized →
    ∃ row ∈ opcodeTable, row.tag = tagOfKeys op f3 b ∧ opcodeOf row.pattern = op ∧
      (row.mask = 0x0000007F#32 ∨
        (row.mask = 0x0000707F#32 ∧ funct3Of row.pattern = f3) ∨
        (row.mask = 0x4000707F#32 ∧ funct3Of row.pattern = f3 ∧ inst30Of row.pattern = b)) := by
  decide +kernel

end Sys2Proof
end

