-- ==== Sys2Proof/Laws/Step.lean ====
section
/-! SUPPORT. Said once: what an instruction can do, and what a step can do. -/

namespace Sys2Proof.Machine

/-- What an instruction can do to the state: a register and pc, with no memory access; a load in bounds; a store in
bounds; or an access fault. -/
theorem exec_cases {i : Instr} {s t : State} (h : exec i s = .next t) :
    (∃ rd v p, t = (s.writeReg rd v).redirect p) ∨
    (∃ rd v, t = (s.chargeAccess.writeReg rd v).advance) ∨
    (∃ n ea v, s.inBounds ea n = true ∧ t = State.advance { s.chargeAccess with mem := s.mem.write ea.toNat v n }) ∨
    (∃ n ea dir, s.inBounds ea n = false ∧ t = s.chargeAccess.takeFault (.accessFault s.pc ea n dir)) := by
  have hb : ∀ {c : Bool} {off : Word}, s.branch c off = .next t → ∃ rd v p, t = (s.writeReg rd v).redirect p := by
    intro c off h
    rw [State.branch_eq] at h
    exact ⟨0, 0, _, (Host.Outcome.next.inj h).symm⟩
  have hw : ∀ {rd : Reg} {v : Word}, s.writeBack rd v = .next t → ∃ rd v p, t = (s.writeReg rd v).redirect p := by
    intro rd v h
    exact ⟨rd, v, _, (Host.Outcome.next.inj h).symm⟩
  have hk : ∀ {rd : Reg} {p : Word}, s.link rd p = .next t → ∃ rd v p, t = (s.writeReg rd v).redirect p := by
    intro rd p h
    exact ⟨rd, _, p, (Host.Outcome.next.inj h).symm⟩
  have hl : ∀ {n : Len} {ext : Word → Word} {rd : Reg} {ea : Word}, s.load n ext rd ea = .next t →
      (∃ rd v, t = (s.chargeAccess.writeReg rd v).advance) ∨
        ∃ n ea dir, s.inBounds ea n = false ∧ t = s.chargeAccess.takeFault (.accessFault s.pc ea n dir) := by
    intro n ext rd ea h
    cases hin : s.inBounds ea n with
    | true => rw [State.load_in hin] at h; exact .inl ⟨rd, _, (Host.Outcome.next.inj h).symm⟩
    | false => rw [State.load_out hin] at h; exact .inr ⟨n, ea, _, hin, (Host.Outcome.next.inj h).symm⟩
  have hs : ∀ {n : Len} {ea v : Word}, s.store n ea v = .next t →
      (∃ n ea v, s.inBounds ea n = true ∧ t = State.advance { s.chargeAccess with mem := s.mem.write ea.toNat v n }) ∨
        ∃ n ea dir, s.inBounds ea n = false ∧ t = s.chargeAccess.takeFault (.accessFault s.pc ea n dir) := by
    intro n ea v h
    cases hin : s.inBounds ea n with
    | true => rw [State.store_in hin] at h; exact .inl ⟨n, ea, v, hin, (Host.Outcome.next.inj h).symm⟩
    | false => rw [State.store_out hin] at h; exact .inr ⟨n, ea, _, hin, (Host.Outcome.next.inj h).symm⟩
  cases i with
  | lui | auipc => exact .inl (hw h)
  | jal | jalr => exact .inl (hk h)
  | beq | bne | blt | bge | bltu | bgeu => exact .inl (hb h)
  | lb | lh | lw | lbu | lhu => exact .inr ((hl h).imp_right .inr)
  | sb | sh | sw => exact .inr (.inr (hs h))
  | addi | slti | sltiu | xori | ori | andi | slli | srli | srai => exact .inl (hw h)
  | add | sub | sll | slt | sltu | xor | srl | sra | or | and => exact .inl (hw h)

/-- What a load can do. -/
theorem State.load_next {s t : State} {n : Len} {ext : Word → Word} {rd : Reg} {ea : Word}
    (h : s.load n ext rd ea = .next t) :
    (s.inBounds ea n = true ∧ t = (s.chargeAccess.writeReg rd (ext (s.mem.read ea.toNat n))).advance) ∨
      (s.inBounds ea n = false ∧ t = s.chargeAccess.takeFault (.accessFault s.pc ea n .read)) := by
  cases hin : s.inBounds ea n with
  | true => rw [State.load_in hin] at h; exact .inl ⟨rfl, (Host.Outcome.next.inj h).symm⟩
  | false => rw [State.load_out hin] at h; exact .inr ⟨rfl, (Host.Outcome.next.inj h).symm⟩

/-- What a store can do. -/
theorem State.store_next {s t : State} {n : Len} {ea v : Word} (h : s.store n ea v = .next t) :
    (s.inBounds ea n = true ∧ t = State.advance { s.chargeAccess with mem := s.mem.write ea.toNat v n }) ∨
      (s.inBounds ea n = false ∧ t = s.chargeAccess.takeFault (.accessFault s.pc ea n .write)) := by
  cases hin : s.inBounds ea n with
  | true => rw [State.store_in hin] at h; exact .inl ⟨rfl, (Host.Outcome.next.inj h).symm⟩
  | false => rw [State.store_out hin] at h; exact .inr ⟨rfl, (Host.Outcome.next.inj h).symm⟩

/-- Every meaning answers a next state. -/
theorem exec_next (i : Instr) (s : State) : ∃ t, exec i s = .next t := by
  have hb : ∀ c o, ∃ t, s.branch c o = .next t := fun c o => ⟨_, s.branch_eq c o⟩
  have hl : ∀ n ext rd ea, ∃ t, s.load n ext rd ea = .next t := by
    intro n ext rd ea
    cases h : s.inBounds ea n
    · exact ⟨_, State.load_out h _ _⟩
    · exact ⟨_, State.load_in h _ _⟩
  have hs : ∀ n ea v, ∃ t, s.store n ea v = .next t := by
    intro n ea v
    cases h : s.inBounds ea n
    · exact ⟨_, State.store_out h _⟩
    · exact ⟨_, State.store_in h _⟩
  cases i with
  | lui | auipc | jal | jalr => exact ⟨_, rfl⟩
  | beq | bne | blt | bge | bltu | bgeu => exact hb _ _
  | lb | lh | lw | lbu | lhu => exact hl _ _ _ _
  | sb | sh | sw => exact hs _ _ _
  | addi | slti | sltiu | xori | ori | andi | slli | srli | srai => exact ⟨_, rfl⟩
  | add | sub | sll | slt | sltu | xor | srl | sra | or | and => exact ⟨_, rfl⟩

/-- The two ways a cycle ends. -/
theorem State.endCycle_cases (u : State) (op : Tag) :
    (u.loopState = .running ∧ u.endCycle op = u.completeCycle op) ∨ (u.loopState ≠ .running ∧ u.endCycle op = u) := by
  unfold State.endCycle
  cases u.loopState
  · exact .inl ⟨rfl, rfl⟩
  · exact .inr ⟨by simp, rfl⟩
  · exact .inr ⟨by simp, rfl⟩

/-- What the loop does around the engine's answer. -/
theorem finishCycle_cases {op : Tag} {r : Result} {t : State} (h : finishCycle op r = .next t) :
    ∃ u, r = .next u ∧ ((u.loopState = .running ∧ t = u.completeCycle op) ∨ (u.loopState ≠ .running ∧ t = u)) := by
  cases r with
  | next u =>
    obtain rfl := Host.Outcome.next.inj h
    exact ⟨u, rfl, u.endCycle_cases op⟩
  | fault f => cases h
  | refused f => cases h

/-- What a step can do (48_fetch_execute_loop.md R229), the phases of a cycle told apart. -/
theorem step_cases {s t : State} (h : step s = .next t) :
    (s.loopState ≠ .running ∧ t = s) ∨
    (s.loopState = .running ∧ s.stopRequested = true ∧ t = s.halt) ∨
    (s.loopState = .running ∧ s.stopRequested = false ∧ ∃ f, s.fetch.2 = .error f ∧ t = s.fetch.1.takeFault f) ∨
    (s.loopState = .running ∧ s.stopRequested = false ∧ ∃ inst why, s.fetch.2 = .ok inst ∧
      decode inst = .unrecognized why ∧ t = s.fetch.1.takeFault (faultOfUnrecognized s.pc inst)) ∨
    (s.loopState = .running ∧ s.stopRequested = false ∧ ∃ inst i u, s.fetch.2 = .ok inst ∧ decode inst = .instr i ∧
      exec i s.fetch.1 = .next u ∧
      ((u.loopState = .running ∧ t = u.completeCycle i.tag) ∨ (u.loopState ≠ .running ∧ t = u))) := by
  unfold step State.loop at h
  cases hl : s.loopState <;> rw [hl] at h
  case faulted => exact .inl ⟨by simp, (Host.Outcome.next.inj h).symm⟩
  case halted => exact .inl ⟨by simp, (Host.Outcome.next.inj h).symm⟩
  refine .inr ?_
  cases hs : s.stopRequested <;> rw [hs] at h
  case true => exact .inl ⟨rfl, rfl, (Host.Outcome.next.inj h).symm⟩
  refine .inr ?_
  replace h : s.cycle = .next t := h
  unfold State.cycle at h
  have hpc := s.fetch_fst_pc
  rcases hf : s.fetch with ⟨t0, f | inst⟩
  · rw [hf] at h
    exact .inl ⟨rfl, rfl, f, rfl, (Host.Outcome.next.inj h).symm⟩
  · rw [hf] at h hpc
    refine .inr ?_
    dsimp only at h hpc
    cases hd : decode inst with
    | unrecognized why =>
      rw [hd] at h
      refine .inl ⟨rfl, rfl, inst, why, rfl, hd, ?_⟩
      rw [← hpc]
      exact (Host.Outcome.next.inj h).symm
    | instr i =>
      rw [hd] at h
      obtain ⟨u, hu, hc⟩ := finishCycle_cases h
      exact .inr ⟨rfl, rfl, inst, i, u, rfl, hd, hu, hc⟩

end Sys2Proof.Machine
end

