-- ==== Sys2Proof/Laws/Host.lean ====
section
/-! SUPPORT. Said once: what the loader feed and a host move can do. -/

namespace Sys2Proof.Machine

/-! ### The loader feed -/

/-- The bytes of a record, each at its address. -/
theorem Memory.byte_writeBytes (m : Memory) (a : Nat) (bs : List Byte) (x : Nat) :
    Memory.byte (m.writeBytes a bs) x = if a ≤ x then bs.getD (x - a) (Memory.byte m x) else Memory.byte m x := by
  induction bs generalizing m a with
  | nil => simp [Memory.writeBytes]
  | cons b bs ih =>
    unfold Memory.writeBytes
    rw [ih, Memory.byte_set]
    by_cases h1 : a + 1 ≤ x
    · rw [if_pos h1, if_neg (show x ≠ a by omega), if_pos (show a ≤ x by omega)]
      obtain ⟨k, rfl⟩ := Nat.exists_eq_add_of_le h1
      rw [show a + 1 + k - (a + 1) = k by omega, show a + 1 + k - a = k + 1 by omega]
      rfl
    · rw [if_neg h1]
      by_cases h2 : x = a
      · subst h2; simp
      · rw [if_neg h2, if_neg (by omega)]

/-- A feed is answered when every record fits. -/
theorem State.loadImage_answers (records : List Record) (s : State) :
    (∃ t, s.loadImage records = .next t) ↔ ∀ r ∈ records, r.addr + r.bytes.length ≤ s.cfg.memSize := by
  induction records generalizing s with
  | nil => simp [State.loadImage]
  | cons r rs ih =>
    unfold State.loadImage
    by_cases h : r.addr + r.bytes.length ≤ s.cfg.memSize
    · rw [if_pos h, ih]; simp [h]
    · rw [if_neg h]; simp [h]

/-- An answered feed changes memory only, record after record. -/
theorem State.loadImage_next {records : List Record} {s t : State} (h : s.loadImage records = .next t) :
    t = { s with mem := t.mem } ∧ (∀ r ∈ records, r.addr + r.bytes.length ≤ s.cfg.memSize) ∧
      t.mem = records.foldl (fun m r => Memory.writeBytes m r.addr r.bytes) s.mem := by
  induction records generalizing s with
  | nil => cases h; simp
  | cons r rs ih =>
    unfold State.loadImage at h
    by_cases hr : r.addr + r.bytes.length ≤ s.cfg.memSize
    · rw [if_pos hr] at h
      obtain ⟨h1, h2, h3⟩ := ih h
      exact ⟨h1, List.forall_mem_cons.2 ⟨hr, h2⟩, h3⟩
    · rw [if_neg hr] at h; cases h

/-! ### Host moves -/

theorem Len.ofNat?_bytes (n : Len) : Len.ofNat? n.bytes = some n := by cases n <;> rfl

theorem Len.ofNat?_other {k : Nat} (h : k ∉ [1, 2, 4]) : Len.ofNat? k = none := by
  unfold Len.ofNat?
  split <;> simp_all

/-- The two things a debug read can do: both leave the state. -/
theorem State.debugRead_cases (s : State) (a : Word) (n : Len) :
    (s.inBounds a n = true ∧ s.debugRead a n = .answered (.value (s.mem.read a.toNat n)) s) ∨
      (s.inBounds a n = false ∧ s.debugRead a n = .answered .outOfBounds s) := by
  unfold State.debugRead State.readAccess
  cases s.inBounds a n
  · exact .inr ⟨rfl, rfl⟩
  · exact .inl ⟨rfl, rfl⟩

/-- The two things a debug write can do. -/
theorem State.debugWrite_cases (s : State) (a : Word) (n : Len) (v : Word) :
    (s.inBounds a n = true ∧ s.debugWrite a n v = .answered .done { s with mem := s.mem.write a.toNat v n }) ∨
      (s.inBounds a n = false ∧ s.debugWrite a n v = .answered .outOfBounds s) := by
  unfold State.debugWrite State.writeAccess
  cases s.inBounds a n
  · exact .inr ⟨rfl, rfl⟩
  · exact .inl ⟨rfl, rfl⟩

/-- What an answered host move can do. -/
theorem HostMove.apply_cases {m : HostMove} {s t : State} {a : HostAnswer} (h : m.apply s = .answered a t) :
    t = s ∨ t = s.requestStop ∨
    (∃ ea n v, s.inBounds ea n = true ∧ t = { s with mem := s.mem.write ea.toNat v n }) ∨
    (∃ r v, t = s.writeReg r v) ∨ (∃ v, t = s.redirect v) ∨ t = s.invalidateGrant := by
  cases m with
  | requestStop => cases h; exact .inr (.inl rfl)
  | debugRead ea length =>
    simp only [HostMove.apply] at h
    cases hn : Len.ofNat? length with
    | none => rw [hn] at h; cases h
    | some n =>
      rw [hn] at h
      rcases s.debugRead_cases ea n with ⟨-, e⟩ | ⟨-, e⟩ <;> (simp only [e] at h; cases h; exact .inl rfl)
  | debugWrite ea length v =>
    simp only [HostMove.apply] at h
    cases hn : Len.ofNat? length with
    | none => rw [hn] at h; cases h
    | some n =>
      rw [hn] at h
      rcases s.debugWrite_cases ea n v with ⟨hin, e⟩ | ⟨-, e⟩ <;> simp only [e] at h <;> cases h
      · exact .inr (.inr (.inl ⟨ea, n, v, hin, rfl⟩))
      · exact .inl rfl
  | readRegister index =>
    simp only [HostMove.apply] at h
    split at h <;> cases h
    exact .inl rfl
  | writeRegister index v =>
    simp only [HostMove.apply] at h
    split at h <;> cases h
    exact .inr (.inr (.inr (.inl ⟨_, v, rfl⟩)))
  | readPc => cases h; exact .inl rfl
  | writePc v => cases h; exact .inr (.inr (.inr (.inr (.inl ⟨v, rfl⟩))))
  | invalidateGrant => cases h; exact .inr (.inr (.inr (.inr (.inr rfl))))

end Sys2Proof.Machine
end

