-- ==== Sys2Proof/Laws/PerInstr.lean ====
section
/-! SUPPORT. The family CanonicalWord, one lemma for each constructor: the encoder's word is the canonical word of its
row of spec/opcode_table.json (30_encoding.md R127, R131). -/

namespace Sys2Proof.Laws.CanonicalWord

/-- Some row of the table has the instruction's tag, and the encoded word passes that row's canonical test. -/
def Statement (i : Instr) : Prop := ∃ row ∈ opcodeTable, row.tag = i.tag ∧ row.canonical (encode i) = true

theorem of_row {i : Instr} (row : TableRow) (h : row ∈ opcodeTable) (ht : row.tag = i.tag)
    (hc : encode i &&& row.canonicalMask = row.canonicalPattern) : Statement i :=
  ⟨row, h, ht, by simpa [TableRow.canonical] using hc⟩

theorem lui (rd : Reg) (imm : BitVec 20) : Statement (.lui rd imm) :=
  of_row ⟨.lui, 0x0000007F#32, 0x00000037#32, 0x0000007F#32, 0x00000037#32⟩ (by decide) rfl (by
    rw [masked_op _ _ rfl]; simp [encode]; decide)

theorem auipc (rd : Reg) (imm : BitVec 20) : Statement (.auipc rd imm) :=
  of_row ⟨.auipc, 0x0000007F#32, 0x00000017#32, 0x0000007F#32, 0x00000017#32⟩ (by decide) rfl (by
    rw [masked_op _ _ rfl]; simp [encode]; decide)

theorem jal (rd : Reg) (offset : BitVec 21) : Statement (.jal rd offset) :=
  of_row ⟨.jal, 0x0000007F#32, 0x0000006F#32, 0x0000007F#32, 0x0000006F#32⟩ (by decide) rfl (by
    rw [masked_op _ _ rfl]; simp [encode]; decide)

theorem jalr (rd rs1 : Reg) (imm : BitVec 12) : Statement (.jalr rd rs1 imm) :=
  of_row ⟨.jalr, 0x0000007F#32, 0x00000067#32, 0x0000707F#32, 0x00000067#32⟩ (by decide) rfl (by
    rw [masked_f3 _ _ rfl]; simp [encode]; decide)

theorem beq (rs1 rs2 : Reg) (offset : BitVec 13) : Statement (.beq rs1 rs2 offset) :=
  of_row ⟨.beq, 0x0000707F#32, 0x00000063#32, 0x0000707F#32, 0x00000063#32⟩ (by decide) rfl (by
    rw [masked_f3 _ _ rfl]; simp [encode]; decide)

theorem bne (rs1 rs2 : Reg) (offset : BitVec 13) : Statement (.bne rs1 rs2 offset) :=
  of_row ⟨.bne, 0x0000707F#32, 0x00001063#32, 0x0000707F#32, 0x00001063#32⟩ (by decide) rfl (by
    rw [masked_f3 _ _ rfl]; simp [encode]; decide)

theorem blt (rs1 rs2 : Reg) (offset : BitVec 13) : Statement (.blt rs1 rs2 offset) :=
  of_row ⟨.blt, 0x0000707F#32, 0x00004063#32, 0x0000707F#32, 0x00004063#32⟩ (by decide) rfl (by
    rw [masked_f3 _ _ rfl]; simp [encode]; decide)

theorem bge (rs1 rs2 : Reg) (offset : BitVec 13) : Statement (.bge rs1 rs2 offset) :=
  of_row ⟨.bge, 0x0000707F#32, 0x00005063#32, 0x0000707F#32, 0x00005063#32⟩ (by decide) rfl (by
    rw [masked_f3 _ _ rfl]; simp [encode]; decide)

theorem bltu (rs1 rs2 : Reg) (offset : BitVec 13) : Statement (.bltu rs1 rs2 offset) :=
  of_row ⟨.bltu, 0x0000707F#32, 0x00006063#32, 0x0000707F#32, 0x00006063#32⟩ (by decide) rfl (by
    rw [masked_f3 _ _ rfl]; simp [encode]; decide)

theorem bgeu (rs1 rs2 : Reg) (offset : BitVec 13) : Statement (.bgeu rs1 rs2 offset) :=
  of_row ⟨.bgeu, 0x0000707F#32, 0x00007063#32, 0x0000707F#32, 0x00007063#32⟩ (by decide) rfl (by
    rw [masked_f3 _ _ rfl]; simp [encode]; decide)

theorem lb (rd rs1 : Reg) (imm : BitVec 12) : Statement (.lb rd rs1 imm) :=
  of_row ⟨.lb, 0x0000707F#32, 0x00000003#32, 0x0000707F#32, 0x00000003#32⟩ (by decide) rfl (by
    rw [masked_f3 _ _ rfl]; simp [encode]; decide)

theorem lh (rd rs1 : Reg) (imm : BitVec 12) : Statement (.lh rd rs1 imm) :=
  of_row ⟨.lh, 0x0000707F#32, 0x00001003#32, 0x0000707F#32, 0x00001003#32⟩ (by decide) rfl (by
    rw [masked_f3 _ _ rfl]; simp [encode]; decide)

theorem lw (rd rs1 : Reg) (imm : BitVec 12) : Statement (.lw rd rs1 imm) :=
  of_row ⟨.lw, 0x0000707F#32, 0x00002003#32, 0x0000707F#32, 0x00002003#32⟩ (by decide) rfl (by
    rw [masked_f3 _ _ rfl]; simp [encode]; decide)

theorem lbu (rd rs1 : Reg) (imm : BitVec 12) : Statement (.lbu rd rs1 imm) :=
  of_row ⟨.lbu, 0x0000707F#32, 0x00004003#32, 0x0000707F#32, 0x00004003#32⟩ (by decide) rfl (by
    rw [masked_f3 _ _ rfl]; simp [encode]; decide)

theorem lhu (rd rs1 : Reg) (imm : BitVec 12) : Statement (.lhu rd rs1 imm) :=
  of_row ⟨.lhu, 0x0000707F#32, 0x00005003#32, 0x0000707F#32, 0x00005003#32⟩ (by decide) rfl (by
    rw [masked_f3 _ _ rfl]; simp [encode]; decide)

theorem sb (rs1 rs2 : Reg) (imm : BitVec 12) : Statement (.sb rs1 rs2 imm) :=
  of_row ⟨.sb, 0x0000707F#32, 0x00000023#32, 0x0000707F#32, 0x00000023#32⟩ (by decide) rfl (by
    rw [masked_f3 _ _ rfl]; simp [encode]; decide)

theorem sh (rs1 rs2 : Reg) (imm : BitVec 12) : Statement (.sh rs1 rs2 imm) :=
  of_row ⟨.sh, 0x0000707F#32, 0x00001023#32, 0x0000707F#32, 0x00001023#32⟩ (by decide) rfl (by
    rw [masked_f3 _ _ rfl]; simp [encode]; decide)

theorem sw (rs1 rs2 : Reg) (imm : BitVec 12) : Statement (.sw rs1 rs2 imm) :=
  of_row ⟨.sw, 0x0000707F#32, 0x00002023#32, 0x0000707F#32, 0x00002023#32⟩ (by decide) rfl (by
    rw [masked_f3 _ _ rfl]; simp [encode]; decide)

theorem addi (rd rs1 : Reg) (imm : BitVec 12) : Statement (.addi rd rs1 imm) :=
  of_row ⟨.addi, 0x0000707F#32, 0x00000013#32, 0x0000707F#32, 0x00000013#32⟩ (by decide) rfl (by
    rw [masked_f3 _ _ rfl]; simp [encode]; decide)

theorem slti (rd rs1 : Reg) (imm : BitVec 12) : Statement (.slti rd rs1 imm) :=
  of_row ⟨.slti, 0x0000707F#32, 0x00002013#32, 0x0000707F#32, 0x00002013#32⟩ (by decide) rfl (by
    rw [masked_f3 _ _ rfl]; simp [encode]; decide)

theorem sltiu (rd rs1 : Reg) (imm : BitVec 12) : Statement (.sltiu rd rs1 imm) :=
  of_row ⟨.sltiu, 0x0000707F#32, 0x00003013#32, 0x0000707F#32, 0x00003013#32⟩ (by decide) rfl (by
    rw [masked_f3 _ _ rfl]; simp [encode]; decide)

theorem xori (rd rs1 : Reg) (imm : BitVec 12) : Statement (.xori rd rs1 imm) :=
  of_row ⟨.xori, 0x0000707F#32, 0x00004013#32, 0x0000707F#32, 0x00004013#32⟩ (by decide) rfl (by
    rw [masked_f3 _ _ rfl]; simp [encode]; decide)

theorem ori (rd rs1 : Reg) (imm : BitVec 12) : Statement (.ori rd rs1 imm) :=
  of_row ⟨.ori, 0x0000707F#32, 0x00006013#32, 0x0000707F#32, 0x00006013#32⟩ (by decide) rfl (by
    rw [masked_f3 _ _ rfl]; simp [encode]; decide)

theorem andi (rd rs1 : Reg) (imm : BitVec 12) : Statement (.andi rd rs1 imm) :=
  of_row ⟨.andi, 0x0000707F#32, 0x00007013#32, 0x0000707F#32, 0x00007013#32⟩ (by decide) rfl (by
    rw [masked_f3 _ _ rfl]; simp [encode]; decide)

theorem slli (rd rs1 : Reg) (shamt : BitVec 5) : Statement (.slli rd rs1 shamt) :=
  of_row ⟨.slli, 0x0000707F#32, 0x00001013#32, 0xFE00707F#32, 0x00001013#32⟩ (by decide) rfl (by
    rw [masked_f7 _ _ rfl]; simp [encode]; decide)

theorem srli (rd rs1 : Reg) (shamt : BitVec 5) : Statement (.srli rd rs1 shamt) :=
  of_row ⟨.srli, 0x4000707F#32, 0x00005013#32, 0xFE00707F#32, 0x00005013#32⟩ (by decide) rfl (by
    rw [masked_f7 _ _ rfl]; simp [encode]; decide)

theorem srai (rd rs1 : Reg) (shamt : BitVec 5) : Statement (.srai rd rs1 shamt) :=
  of_row ⟨.srai, 0x4000707F#32, 0x40005013#32, 0xFE00707F#32, 0x40005013#32⟩ (by decide) rfl (by
    rw [masked_f7 _ _ rfl]; simp [encode]; decide)

theorem add (rd rs1 rs2 : Reg) : Statement (.add rd rs1 rs2) :=
  of_row ⟨.add, 0x4000707F#32, 0x00000033#32, 0xFE00707F#32, 0x00000033#32⟩ (by decide) rfl (by
    rw [masked_f7 _ _ rfl]; simp [encode]; decide)

theorem sub (rd rs1 rs2 : Reg) : Statement (.sub rd rs1 rs2) :=
  of_row ⟨.sub, 0x4000707F#32, 0x40000033#32, 0xFE00707F#32, 0x40000033#32⟩ (by decide) rfl (by
    rw [masked_f7 _ _ rfl]; simp [encode]; decide)

theorem sll (rd rs1 rs2 : Reg) : Statement (.sll rd rs1 rs2) :=
  of_row ⟨.sll, 0x0000707F#32, 0x00001033#32, 0xFE00707F#32, 0x00001033#32⟩ (by decide) rfl (by
    rw [masked_f7 _ _ rfl]; simp [encode]; decide)

theorem slt (rd rs1 rs2 : Reg) : Statement (.slt rd rs1 rs2) :=
  of_row ⟨.slt, 0x0000707F#32, 0x00002033#32, 0xFE00707F#32, 0x00002033#32⟩ (by decide) rfl (by
    rw [masked_f7 _ _ rfl]; simp [encode]; decide)

theorem sltu (rd rs1 rs2 : Reg) : Statement (.sltu rd rs1 rs2) :=
  of_row ⟨.sltu, 0x0000707F#32, 0x00003033#32, 0xFE00707F#32, 0x00003033#32⟩ (by decide) rfl (by
    rw [masked_f7 _ _ rfl]; simp [encode]; decide)

theorem xor (rd rs1 rs2 : Reg) : Statement (.xor rd rs1 rs2) :=
  of_row ⟨.xor, 0x0000707F#32, 0x00004033#32, 0xFE00707F#32, 0x00004033#32⟩ (by decide) rfl (by
    rw [masked_f7 _ _ rfl]; simp [encode]; decide)

theorem srl (rd rs1 rs2 : Reg) : Statement (.srl rd rs1 rs2) :=
  of_row ⟨.srl, 0x4000707F#32, 0x00005033#32, 0xFE00707F#32, 0x00005033#32⟩ (by decide) rfl (by
    rw [masked_f7 _ _ rfl]; simp [encode]; decide)

theorem sra (rd rs1 rs2 : Reg) : Statement (.sra rd rs1 rs2) :=
  of_row ⟨.sra, 0x4000707F#32, 0x40005033#32, 0xFE00707F#32, 0x40005033#32⟩ (by decide) rfl (by
    rw [masked_f7 _ _ rfl]; simp [encode]; decide)

theorem or (rd rs1 rs2 : Reg) : Statement (.or rd rs1 rs2) :=
  of_row ⟨.or, 0x0000707F#32, 0x00006033#32, 0xFE00707F#32, 0x00006033#32⟩ (by decide) rfl (by
    rw [masked_f7 _ _ rfl]; simp [encode]; decide)

theorem and (rd rs1 rs2 : Reg) : Statement (.and rd rs1 rs2) :=
  of_row ⟨.and, 0x0000707F#32, 0x00007033#32, 0xFE00707F#32, 0x00007033#32⟩ (by decide) rfl (by
    rw [masked_f7 _ _ rfl]; simp [encode]; decide)

end Sys2Proof.Laws.CanonicalWord
end

