-- ==== Sys2Proof/Laws/Templates.lean ====
section
/-! SUPPORT. The whole effect of each template of Ops.lean, in the terms of Safety.lean, and the arithmetic of the
immediates as numbers. -/

namespace Sys2Proof.Machine

/-! ### Frames of the building blocks -/

theorem State.writeReg_onlyReg (s : State) (rd : Reg) (v : Word) : s.OnlyReg (s.writeReg rd v) rd v :=
  fun r => s.readReg_writeReg rd v r

/-- Writing a value of length n sets exactly the n bytes. -/
theorem State.write_onlyBytes (s t : State) (ea : Word) (n : Len) (v : Word) (h : t.mem = s.mem.write ea.toNat v n) :
    s.OnlyBytes t ea n v := by
  intro a
  rw [h, Memory.byte_write]

/-! ### Templates -/

theorem State.writeBack_computes (s : State) (rd : Reg) (v : Word) :
    ∃ t, s.writeBack rd v = .next t ∧ s.Computes t rd v :=
  ⟨_, rfl, s.writeReg_onlyReg rd v, rfl, fun _ => rfl, ⟨rfl, rfl, rfl, rfl, rfl, rfl, rfl⟩, rfl⟩

theorem State.link_jumps (s : State) (rd : Reg) (p : Word) : ∃ t, s.link rd p = .next t ∧ s.Jumps t rd p :=
  ⟨_, rfl, s.writeReg_onlyReg rd s.pcNext, rfl, fun _ => rfl, ⟨rfl, rfl, rfl, rfl, rfl, rfl, rfl⟩, rfl⟩

theorem State.branch_goesTo (s : State) (c : Bool) (offset : Word) :
    ∃ t, s.branch c offset = .next t ∧ s.GoesTo t (if c then s.pc + offset else s.pc + 4) :=
  ⟨_, s.branch_eq c offset, fun _ => rfl, rfl, fun _ => rfl, ⟨rfl, rfl, rfl, rfl, rfl, rfl, rfl⟩, rfl⟩

theorem State.load_loads {s : State} {n : Len} {ea : Word} (h : ea.toNat + n.bytes ≤ s.cfg.memSize)
    (ext : Word → Word) (rd : Reg) :
    ∃ t, s.load n ext rd ea = .next t ∧ s.Loads t rd (ext (s.mem.read ea.toNat n)) :=
  ⟨_, State.load_in ((s.inBounds_iff ea n).2 h) ext rd, s.chargeAccess.writeReg_onlyReg rd _, rfl, fun _ => rfl,
    ⟨rfl, rfl, rfl, rfl, rfl, rfl, rfl⟩, rfl⟩

theorem State.store_stores {s : State} {n : Len} {ea : Word} (h : ea.toNat + n.bytes ≤ s.cfg.memSize) (v : Word) :
    ∃ t, s.store n ea v = .next t ∧ s.Stores t ea n v :=
  ⟨_, State.store_in ((s.inBounds_iff ea n).2 h) v, fun _ => rfl, rfl, s.write_onlyBytes _ ea n v rfl,
    ⟨rfl, rfl, rfl, rfl, rfl, rfl, rfl⟩, rfl⟩

/-- The access fault a load or store takes. -/
theorem State.takeAccessFault_faultsWith (s : State) (f : Fault) : s.FaultsWith (s.chargeAccess.takeFault f) f :=
  ⟨fun _ => rfl, rfl, fun _ => rfl, rfl, rfl, rfl, rfl, rfl⟩

/-- The fault the loop takes after a fetch. -/
theorem State.takeFault_fetch_faultsWith (s : State) (f : Fault) : s.FaultsWith (s.fetch.1.takeFault f) f := by
  obtain ⟨g, rs, time, h, -⟩ := s.fetch_fst_eq
  rw [h]
  exact ⟨fun _ => rfl, rfl, fun _ => rfl, rfl, rfl, rfl, rfl, rfl⟩

/-! ### Runs -/

theorem runSteps_succ {s t : State} (h : step s = .next t) (k : Nat) : runSteps (k + 1) s = runSteps k t := by
  rw [runSteps, h]

/-- The host's run of the machine is this run. -/
theorem core_run_eq (k : Nat) (s : State) : Host.Core.run Sys2Proof.core k s = runSteps k s := by
  induction k generalizing s with
  | zero => rfl
  | succ k ih =>
    have h : Sys2Proof.core.step s = step s := rfl
    cases hs : step s with
    | next t => rw [runSteps_succ hs, ← ih]; simp only [Host.Core.run, h, hs]
    | fault f => simp only [Host.Core.run, runSteps, h, hs]; rfl
    | refused r => simp only [Host.Core.run, runSteps, h, hs]; rfl

/-! ### Immediates as numbers -/

theorem value12_eq (f : BitVec 12) : value12 f = BitVec.ofInt 32 f.toInt := rfl
theorem value13_eq (f : BitVec 13) : value13 f = BitVec.ofInt 32 f.toInt := rfl
theorem value21_eq (f : BitVec 21) : value21 f = BitVec.ofInt 32 f.toInt := rfl

/-- Adding a signed number to a word, modulo 2^32. -/
theorem add_ofInt (a : Word) (k : Int) : a + BitVec.ofInt 32 k = BitVec.ofInt 32 (a.toNat + k) := by
  rw [BitVec.ofInt_add]
  congr 1
  simp

theorem add_ofInt_signed (a : Word) (k : Int) : a + BitVec.ofInt 32 k = BitVec.ofInt 32 (a.toInt + k) := by
  rw [BitVec.ofInt_add, BitVec.ofInt_toInt]

theorem valueU_eq (f : BitVec 20) : valueU f = BitVec.ofNat 32 (f.toNat * 2 ^ 12) := by
  apply BitVec.eq_of_toNat_eq
  have h := f.isLt
  simp only [valueU, BitVec.toNat_append, BitVec.toNat_ofNat, Nat.shiftLeft_eq]
  simp
  omega

end Sys2Proof.Machine
end

