-- ==== Sys2Proof/Tests/Slice0.lean ====
section
/-! SUPPORT. The model's own tests. Every expected value is from spec/: 95_test_vectors.md (sections named in the
comments) or the example of the rule named. Then one witness for each statement with hypotheses. -/

namespace Sys2Proof.Tests

open Sys2Proof Sys2Proof.Machine

set_option Elab.async false

/-! ### Helpers: the setting of 95_test_vectors.md (pc = 0x100, MEM_SIZE = 0x1000,
    registers and memory 0 but for those
named) -/

def cfg : Config := { memSize := 0x1000, resetVector := 0x100, accessLatency := 10, cycleTime := 3 }

/-- Bytes at an address, then the registers, then the word at pc. -/
def small (regs : List (Reg × Word)) (w : Word) (a : Nat := 0) (bytes : List Byte := []) : State :=
  (regs.foldl (fun s c => s.writeReg c.1 c.2) (State.resetWith cfg (Memory.writeBytes [] a bytes))).placeAtPc w

/-- The answer is a next state that passes. -/
def answers (r : Result) (p : State → Bool) : Bool :=
  match r with
  | .next t => p t
  | .fault _ => false
  | .refused _ => false

theorem next_of_answers {r : Result} {p : State → Bool} (h : answers r p = true) : ∃ t, r = .next t ∧ p t = true := by
  unfold answers at h
  split at h
  · exact ⟨_, rfl, h⟩
  · cases h
  · cases h

/-- One step leaves the register at the value and pc at the address. -/
def regPc (s : State) (r : Reg) (v pc : Word) : Bool := answers (step s) fun t => t.readReg r == v && t.pc == pc

/-- One step leaves pc at the address and every register as it was. -/
def onlyPc (s : State) (pc : Word) : Bool := answers (step s) fun t => decide (t.regs = s.regs) && t.pc == pc

/-- One step leaves the bytes at the address, and pc + 4. -/
def bytesAt (s : State) (a : Nat) (bytes : List Byte) : Bool :=
  answers (step s) fun t => (List.range bytes.length).map (fun i => t.mem.byte (a + i)) == bytes && t.pc == s.pc + 4

/-- One step takes the fault with registers, pc and memory as they were. -/
def faultsWith (s : State) (f : Fault) : Bool :=
  answers (step s) fun t => decide (t.loopState = .faulted) && decide (t.faultInfo = some f) && decide (t.regs =
    s.regs) &&
    t.pc == s.pc && decide (t.mem = s.mem)

def eightBytes : List Byte := [0xEF, 0xCD, 0xAB, 0x89, 0x7F, 0x80, 0xFF, 0x00]

def twelveOnes : List Byte := List.replicate 12 0x11

/-! ### WellFormed: an ill-formed term for each check (30_encoding.md R108, R109: offsets are even) -/

theorem test_odd_branch_offsets_are_refused :
    [Instr.beq 1 2 9, .bne 1 2 9, .blt 1 2 9, .bge 1 2 9, .bltu 1 2 9, .bgeu 1 2 9].map Instr.wf =
      [false, false, false, false, false, false] := by decide

theorem test_odd_jal_offset_is_refused : Instr.wf (.jal 1 13) = false := by decide

theorem test_even_offsets_are_accepted : Instr.wf (.beq 1 2 8) = true ∧ Instr.wf (.jal 1 12) = true := by decide

/-! ### Decoding: a word for every constructor (section 2.1), laid out bit by bit for each format (30_encoding.md
R102) -/

theorem test_bits_of_each_format :
    decode 0b0000000_00111_00110_000_00101_0110011#32 = .instr (.add 5 6 7) ∧
      decode 0b000000001010_00000_000_00101_0010011#32 = .instr (.addi 5 0 10) ∧
      decode 0b0000000_00001_00010_000_00101_0100011#32 = .instr (.sb 2 1 5) ∧
      decode 0b1_111111_00000_00010_001_1100_1_1100011#32 = .instr (.bne 2 0 (-8)) ∧
      decode 0b10001001101010111101_00001_0110111#32 = .instr (.lui 1 0x89ABD) ∧
      decode 0b0_0000000110_0_00000000_00001_1101111#32 = .instr (.jal 1 12) := by decide


theorem test_words_of_upper_and_jumps :
    [0xFFFFF3B7#32, 0x00001297#32, 0x00C000EF#32, 0x00008067#32].map decode =
      [.lui 7 0xFFFFF, .auipc 5 1, .jal 1 12, .jalr 0 1 0].map Decoded.instr := by decide

theorem test_encodings_of_upper_and_jumps :
    [.lui 7 0xFFFFF, .auipc 5 1, .jal 1 12, .jalr 0 1 0].map encode =
      [0xFFFFF3B7#32, 0x00001297#32, 0x00C000EF#32, 0x00008067#32] := by decide

theorem test_words_of_branches :
    [0x00208463#32, 0x00209463#32, 0x0020C463#32, 0x0020D463#32, 0x0020E463#32, 0x0020F463#32].map decode =
      [.beq 1 2 8, .bne 1 2 8, .blt 1 2 8, .bge 1 2 8, .bltu 1 2 8, .bgeu 1 2 8].map Decoded.instr := by decide

theorem test_encodings_of_branches :
    [.beq 1 2 8, .bne 1 2 8, .blt 1 2 8, .bge 1 2 8, .bltu 1 2 8, .bgeu 1 2 8].map encode =
      [0x00208463#32, 0x00209463#32, 0x0020C463#32, 0x0020D463#32, 0x0020E463#32, 0x0020F463#32] := by decide

theorem test_words_of_loads_and_stores :
    [0x00008183#32, 0x00009183#32, 0x0000A183#32, 0x0000C183#32, 0x0000D183#32, 0x00208023#32, 0x00209023#32,
      0x0020A023#32].map decode =
      [.lb 3 1 0, .lh 3 1 0, .lw 3 1 0, .lbu 3 1 0, .lhu 3 1 0, .sb 1 2 0, .sh 1 2 0,
        .sw 1 2 0].map Decoded.instr := by decide

theorem test_encodings_of_loads_and_stores :
    [.lb 3 1 0, .lh 3 1 0, .lw 3 1 0, .lbu 3 1 0, .lhu 3 1 0, .sb 1 2 0, .sh 1 2 0, .sw 1 2 0].map encode =
      [0x00008183#32, 0x00009183#32, 0x0000A183#32, 0x0000C183#32, 0x0000D183#32, 0x00208023#32, 0x00209023#32,
        0x0020A023#32] := by decide

theorem test_words_of_immediate_alu :
    [0xFFF30293#32, 0xFFF32293#32, 0xFFF33293#32, 0xFFF34293#32, 0xFFF36293#32, 0xFFF37293#32, 0x00431293#32,
      0x00435293#32, 0x40435293#32].map decode =
      [.addi 5 6 (-1), .slti 5 6 (-1), .sltiu 5 6 (-1), .xori 5 6 (-1), .ori 5 6 (-1), .andi 5 6 (-1), .slli 5 6 4,
        .srli 5 6 4, .srai 5 6 4].map Decoded.instr := by decide

theorem test_encodings_of_immediate_alu :
    [.addi 5 6 (-1), .slti 5 6 (-1), .sltiu 5 6 (-1), .xori 5 6 (-1), .ori 5 6 (-1), .andi 5 6 (-1), .slli 5 6 4,
      .srli 5 6 4, .srai 5 6 4].map encode =
      [0xFFF30293#32, 0xFFF32293#32, 0xFFF33293#32, 0xFFF34293#32, 0xFFF36293#32, 0xFFF37293#32, 0x00431293#32,
        0x00435293#32, 0x40435293#32] := by decide

theorem test_words_of_register_alu :
    [0x007302B3#32, 0x407302B3#32, 0x007312B3#32, 0x007322B3#32, 0x007332B3#32, 0x007342B3#32, 0x007352B3#32,
      0x407352B3#32, 0x007362B3#32, 0x007372B3#32].map decode =
      [.add 5 6 7, .sub 5 6 7, .sll 5 6 7, .slt 5 6 7, .sltu 5 6 7, .xor 5 6 7, .srl 5 6 7, .sra 5 6 7, .or 5 6 7,
        .and 5 6 7].map Decoded.instr := by decide

theorem test_encodings_of_register_alu :
    [.add 5 6 7, .sub 5 6 7, .sll 5 6 7, .slt 5 6 7, .sltu 5 6 7, .xor 5 6 7, .srl 5 6 7, .sra 5 6 7, .or 5 6 7,
      .and 5 6 7].map encode =
      [0x007302B3#32, 0x407302B3#32, 0x007312B3#32, 0x007322B3#32, 0x007332B3#32, 0x007342B3#32, 0x007352B3#32,
        0x407352B3#32, 0x007362B3#32, 0x007372B3#32] := by decide

/-- Section 2.2: bits the decoder ignores. The second word's bits 19:15 hold 3 (R101); its note names x2,
    NOTES.md says so. -/
theorem test_words_with_ignored_bits :
    [0x023100B3#32, 0x0231C0B3#32, 0xFE3100B3#32, 0x40209033#32, 0xC031D0B3#32, 0xFE431293#32, 0x7E435293#32,
      0x0000A067#32].map decode =
      [.add 1 2 3, .xor 1 3 3, .sub 1 2 3, .sll 0 1 2, .sra 1 3 3, .slli 5 6 4, .srai 5 6 4, .jalr 0 1 0].map
        Decoded.instr := by decide

/-- Section 2.3: unrecognized words, by name. -/
theorem test_words_unrecognized :
    [0x00000000#32, 0xFFFFFFFF#32, 0x00000073#32, 0x0FF0000F#32, 0x00002063#32, 0x00006003#32, 0x00003023#32,
      0x00000001#32].map decode =
      [.opcode, .opcode, .system, .opcode, .branchFunct3, .loadFunct3, .storeFunct3, .opcode].map
        Decoded.unrecognized := by decide

/-- The byte decoder: the word little-endian (decision D1), the rest kept, and too few bytes refused by name. -/
theorem test_decode_bytes :
    decodeBytes [0x93, 0x02, 0xA0, 0x00, 0xFF] = (.instr (.addi 5 0 10), [0xFF]) ∧
      decodeBytes [0x93, 0x02, 0xA0] = (.unrecognized .tooShort, [0x93, 0x02, 0xA0]) ∧
      decodeTableWord 32 0x00A00293 = some (.addi 5 0 10) ∧ decodeTableWord 32 0 = none := by decide

/-- Section 3: the immediates of a few words. -/
theorem test_immediates :
    immI 0x80000093#32 = 0xFFFFF800#32 ∧ immS 0xFE112E23#32 = 0xFFFFFFFC#32 ∧ immU 0x89ABD0B7#32 = 0x89ABD000#32 ∧
      immB 0x000000E3#32 = 0x00000800#32 ∧ immB 0xFE011CE3#32 = 0xFFFFFFF8#32 ∧ immJ 0x001000EF#32 = 0x00000800#32 ∧
      immJ 0xDEADBEEF#32 = 0xFFFDB5EA#32 := by decide

/-! ### One step of every instruction (sections 4.1 to 4.7) -/

theorem test_lui : regPc (small [] 0xFFFFF3B7#32) 7 0xFFFFF000#32 0x104#32 = true := by decide +kernel

theorem test_lui_x0 : onlyPc (small [] 0x00001037#32) 0x104#32 = true := by decide +kernel

theorem test_auipc : regPc (small [] 0x00001297#32) 5 0x1100#32 0x104#32 = true := by decide +kernel

theorem test_auipc_wraps :
    regPc { small [] 0 with mem := Memory.write [] 0x40 0x80000297#32 .four, pc :=
      0x40 } 5 0x80000040#32 0x44#32 = true :=
  by decide +kernel

theorem test_jal : regPc (small [] 0x00C000EF#32) 1 0x104#32 0x10C#32 = true := by decide +kernel

theorem test_jal_back : onlyPc (small [] 0xFFDFF06F#32) 0xFC#32 = true := by decide +kernel

theorem test_jalr_clears_bit_zero : regPc (small [(5, 0x200)] 0xFFD280E7#32) 1 0x104#32 0x1FC#32 = true :=
  by decide +kernel

theorem test_jalr_reads_before_link : regPc (small [(5, 0x200)] 0x004282E7#32) 5 0x104#32 0x204#32 = true :=
  by decide +kernel

theorem test_beq_taken : onlyPc (small [(1, 4), (2, 4)] 0x00208463#32) 0x108#32 = true := by decide +kernel

theorem test_beq_not_taken : onlyPc (small [(1, 4), (2, 5)] 0x00208463#32) 0x104#32 = true := by decide +kernel

theorem test_bne_taken : onlyPc (small [(1, 4), (2, 5)] 0x00209463#32) 0x108#32 = true := by decide +kernel

theorem test_bne_not_taken : onlyPc (small [(1, 4), (2, 4)] 0x00209463#32) 0x104#32 = true := by decide +kernel

theorem test_blt_taken : onlyPc (small [(1, 0xFFFFFFFF), (2, 1)] 0x0020C463#32) 0x108#32 = true := by decide +kernel

theorem test_blt_not_taken : onlyPc (small [(1, 1), (2, 0xFFFFFFFF)] 0x0020C463#32) 0x104#32 = true :=
    by decide +kernel

theorem test_bge_taken : onlyPc (small [(1, 1), (2, 0xFFFFFFFF)] 0x0020D463#32) 0x108#32 = true := by decide +kernel

theorem test_bge_not_taken : onlyPc (small [(1, 0x80000000), (2, 0)] 0x0020D463#32) 0x104#32 = true :=
    by decide +kernel

theorem test_bltu_taken : onlyPc (small [(1, 1), (2, 0xFFFFFFFF)] 0x0020E463#32) 0x108#32 = true := by decide +kernel

theorem test_bltu_not_taken : onlyPc (small [(1, 0xFFFFFFFF), (2, 1)] 0x0020E463#32) 0x104#32 = true :=
  by decide +kernel

theorem test_bgeu_taken : onlyPc (small [(1, 0xFFFFFFFF), (2, 1)] 0x0020F463#32) 0x108#32 = true := by decide +kernel

theorem test_bgeu_not_taken : onlyPc (small [(1, 1), (2, 2)] 0x0020F463#32) 0x104#32 = true := by decide +kernel

theorem test_lb : regPc (small [(1, 0x80)] 0x00508183#32 0x80 eightBytes) 3 0xFFFFFF80#32 0x104#32 = true :=
  by decide +kernel

theorem test_lbu : regPc (small [(1, 0x80)] 0x0050C183#32 0x80 eightBytes) 3 0x80#32 0x104#32 = true :=
  by decide +kernel

theorem test_lh : regPc (small [(1, 0x80)] 0x00209183#32 0x80 eightBytes) 3 0xFFFF89AB#32 0x104#32 = true :=
  by decide +kernel

theorem test_lhu : regPc (small [(1, 0x80)] 0x0030D183#32 0x80 eightBytes) 3 0x7F89#32 0x104#32 = true :=
  by decide +kernel

theorem test_lw : regPc (small [(1, 0x80)] 0x0010A183#32 0x80 eightBytes) 3 0x7F89ABCD#32 0x104#32 = true :=
  by decide +kernel

theorem test_lw_rd_is_rs1 : regPc (small [(1, 0x80)] 0x0000A083#32 0x80 eightBytes) 1 0x89ABCDEF#32 0x104#32 = true :=
  by decide +kernel

theorem test_lb_out_of_bounds : faultsWith (small [] 0xFFF00183#32) (.accessFault 0x100 0xFFFFFFFF .one .read) =
    true :=
  by decide +kernel

theorem test_lh_out_of_bounds :
    faultsWith (small [(1, 0xFFF)] 0x00009183#32) (.accessFault 0x100 0xFFF .two .read) = true :=
  by decide +kernel

theorem test_lbu_out_of_bounds :
    faultsWith (small [(1, 0x1000)] 0x0000C183#32) (.accessFault 0x100 0x1000 .one .read) = true :=
  by decide +kernel

theorem test_sb : bytesAt (small [(1, 0x80), (2, 0x89ABCDEF)] 0x002081A3#32 0x7C twelveOnes) 0x7C
    [0x11, 0x11, 0x11, 0x11, 0x11, 0x11, 0x11, 0xEF, 0x11, 0x11, 0x11, 0x11] = true := by decide +kernel

theorem test_sh : bytesAt (small [(1, 0x80), (2, 0x89ABCDEF)] 0x002090A3#32 0x7C twelveOnes) 0x7C
    [0x11, 0x11, 0x11, 0x11, 0x11, 0xEF, 0xCD, 0x11, 0x11, 0x11, 0x11, 0x11] = true := by decide +kernel

theorem test_sw : bytesAt (small [(1, 0x80), (2, 0x89ABCDEF)] 0xFE20AE23#32 0x7C twelveOnes) 0x7C
    [0xEF, 0xCD, 0xAB, 0x89, 0x11, 0x11, 0x11, 0x11, 0x11, 0x11, 0x11, 0x11] = true := by decide +kernel

theorem test_sb_out_of_bounds :
    faultsWith (small [(1, 0x1000), (2, 0xAABBCCDD)] 0x00208023#32) (.accessFault 0x100 0x1000 .one .write) = true :=
  by decide +kernel

theorem test_sh_out_of_bounds :
    faultsWith (small [(1, 0xFFF), (2, 0xAABBCCDD)] 0x00209023#32) (.accessFault 0x100 0xFFF .two .write) = true :=
  by decide +kernel

theorem test_sw_out_of_bounds :
    faultsWith (small [(1, 0xFFD), (2, 0xAABBCCDD)] 0x0020A023#32) (.accessFault 0x100 0xFFD .four .write) = true :=
  by decide +kernel

theorem test_addi : regPc (small [(6, 0x80000000)] 0x80030293#32) 5 0x7FFFF800#32 0x104#32 = true := by decide +kernel

theorem test_slti : regPc (small [(6, 0xFFFFFFFE)] 0xFFF32293#32) 5 1#32 0x104#32 = true := by decide +kernel

theorem test_slti_is_signed : regPc (small [(6, 0x7FFFFFFF)] 0x00132293#32) 5 0#32 0x104#32 = true :=
    by decide +kernel

theorem test_sltiu : regPc (small [(6, 5)] 0xFFF33293#32) 5 1#32 0x104#32 = true := by decide +kernel

theorem test_sltiu_equal : regPc (small [(6, 0xFFFFFFFF)] 0xFFF33293#32) 5 0#32 0x104#32 = true := by decide +kernel

theorem test_xori : regPc (small [(6, 0x12345678)] 0x7FF34293#32) 5 0x12345187#32 0x104#32 = true := by decide +kernel

theorem test_xori_extends : regPc (small [(6, 0x80000000)] 0x80034293#32) 5 0x7FFFF800#32 0x104#32 = true :=
  by decide +kernel

theorem test_ori : regPc (small [(6, 0x80000000)] 0x80036293#32) 5 0xFFFFF800#32 0x104#32 = true := by decide +kernel

theorem test_andi : regPc (small [(6, 0x80000000)] 0x80037293#32) 5 0x80000000#32 0x104#32 = true := by decide +kernel

theorem test_slli : regPc (small [(6, 0x80000001)] 0x01F31293#32) 5 0x80000000#32 0x104#32 = true := by decide +kernel

theorem test_srli : regPc (small [(6, 0x80000001)] 0x00435293#32) 5 0x08000000#32 0x104#32 = true := by decide +kernel

theorem test_srai : regPc (small [(6, 0x80000001)] 0x40435293#32) 5 0xF8000000#32 0x104#32 = true := by decide +kernel

theorem test_srai_ignored_bits : regPc (small [(6, 0x80000001)] 0x7E435293#32) 5 0xF8000000#32 0x104#32 = true :=
  by decide +kernel

theorem test_addi_x0 : onlyPc (small [] 0x00500013#32) 0x104#32 = true := by decide +kernel

theorem test_add : regPc (small [(6, 0x7FFFFFFF), (7, 1)] 0x007302B3#32) 5 0x80000000#32 0x104#32 = true :=
  by decide +kernel

theorem test_add_word_of_mul : regPc (small [(6, 6), (7, 7)] 0x027302B3#32) 5 13#32 0x104#32 = true :=
    by decide +kernel

theorem test_sub : regPc (small [(6, 1), (7, 0xFFFFFFFF)] 0x407302B3#32) 5 2#32 0x104#32 = true := by decide +kernel

theorem test_sll : regPc (small [(6, 0x80000001), (7, 0x21)] 0x007312B3#32) 5 2#32 0x104#32 = true :=
    by decide +kernel

theorem test_slt : regPc (small [(6, 0xFFFFFFFF), (7, 1)] 0x007322B3#32) 5 1#32 0x104#32 = true := by decide +kernel

theorem test_sltu : regPc (small [(6, 0xFFFFFFFF), (7, 1)] 0x007332B3#32) 5 0#32 0x104#32 = true := by decide +kernel

theorem test_xor : regPc (small [(6, 0x12345678), (7, 0x0F0F0F0F)] 0x007342B3#32) 5 0x1D3B5977#32 0x104#32 = true :=
  by decide +kernel

theorem test_srl : regPc (small [(6, 0x80000001), (7, 0xFFFFFFFF)] 0x007352B3#32) 5 1#32 0x104#32 = true :=
  by decide +kernel

theorem test_sra : regPc (small [(6, 0x80000001), (7, 0x21)] 0x407352B3#32) 5 0xC0000000#32 0x104#32 = true :=
  by decide +kernel

theorem test_or : regPc (small [(6, 0x12345678), (7, 0x0F0F0F0F)] 0x007362B3#32) 5 0x1F3F5F7F#32 0x104#32 = true :=
  by decide +kernel

theorem test_and : regPc (small [(6, 0x12345678), (7, 0x0F0F0F0F)] 0x007372B3#32) 5 0x02040608#32 0x104#32 = true :=
  by decide +kernel

/-! ### The loop, faults and the host (sections 5, 6 and 7) -/

theorem test_all_ones_word : faultsWith (small [] 0xFFFFFFFF#32) (.decodeFault 0x100 0xFFFFFFFF) = true :=
  by decide +kernel

theorem test_system_word : faultsWith (small [] 0x00000073#32) (.unimplementedFeature 0x100 0x00000073) = true :=
  by decide +kernel

/-- The word 0x001300A0 at the misaligned pc 0x102. -/
def misaligned : State :=
  { small [] 0 with mem := Memory.writeBytes [] 0x102 [0xA0, 0x00, 0x13, 0x00], pc := 0x102 }

theorem test_misaligned_pc : faultsWith misaligned (.decodeFault 0x102 0x001300A0) = true := by decide +kernel

theorem test_fetch_out_of_bounds :
    faultsWith { small [] 0 with pc := 0xFFD } (.accessFault 0xFFD 0xFFD .four .read) = true :=
  by decide +kernel

theorem test_stop_request_comes_before_the_fetch :
    answers (step { small [] 0xFFFFFFFF#32 with stopRequested := true })
      (fun t => decide (t = { small [] 0xFFFFFFFF#32 with stopRequested := true, loopState := .halted })) = true := by
  decide +kernel

theorem test_event_and_time_of_a_timed_load :
    answers (step (small [(1, 0x80)] 0x0000A183#32))
      (fun t => decide (t.telemetry = [.executed .lw]) && t.simTime == 3 + 2 * 10) = true := by decide +kernel

theorem test_time_of_an_add_fetched_through_a_grant :
    answers (step { small [] 0x007302B3#32 with grant := some ⟨0, 0xFFF, true⟩ }) (fun t => t.simTime == 3) =
      true := by
  decide +kernel

theorem test_invalid_grant_is_not_used :
    answers (step { small [] 0x00A00293#32 with grant := some ⟨0, 0xFFF, false⟩ })
      (fun t => t.readReg 5 == 10 && t.simTime == 3 + 10) = true := by decide +kernel

theorem test_grant_is_requested_when_chosen :
    answers (step { small [] 0x00A00293#32 with grantRequests := [true] })
      (fun t => decide (t.grant = some ⟨0, 0xFFF, true⟩) && t.simTime == 3) = true := by decide +kernel

/-- Section 6: a word written and read at several widths. -/
theorem test_widths_of_a_written_word :
    let m := Memory.write [] 0 0xAABBCCDD#32 .four
    m.read 0 .four = 0xAABBCCDD#32 ∧ m.read 0 .two = 0xCCDD#32 ∧ m.read 1 .two = 0xBBCC#32 ∧ m.read 1 .one = 0xCC#32 ∧
      (m.write 1 0x11 .one).read 0 .four = 0xAABB11DD#32 := by decide

/-- The canonical form: writing the byte an unlisted address reads as removes the entry. -/
theorem test_memory_is_canonical :
    Memory.writeBytes [] 2 [1, 2] = [(2, 1), (3, 2)] ∧ Memory.set (Memory.writeBytes [] 2 [1, 2]) 2 0 = [(3, 2)] ∧
      Memory.set [(3, 2)] 1 7 = [(1, 7), (3, 2)] := by decide

/-- Section 6: bounds at MEM_SIZE, at 2^32, and with the whole address space. -/
theorem test_bounds :
    (small [] 0).inBounds 0xFFC .four = true ∧ (small [] 0).inBounds 0xFFD .four = false ∧
      (small [] 0).inBounds 0xFFF .one = true ∧ (small [] 0).inBounds 0xFFF .two = false ∧
      (small [] 0).inBounds 0xFFFFFFFE .four = false ∧ State.reset.inBounds 0xFFFFFFFC .four = true ∧
      State.reset.inBounds 0xFFFFFFFD .four = false := by decide +kernel

/-- Section 5: the debug port on registers and pc. -/
theorem test_debug_registers :
    (HostMove.writeRegister 31 0x80000000).apply State.reset = .answered .done (State.reset.writeReg 31 0x80000000) ∧
      (State.reset.writeReg 31 0x80000000).readReg 31 = 0x80000000#32 ∧
      (State.reset.writeReg 31 0x80000000).readReg 30 = 0#32 ∧ State.reset.writeReg 0 0xDEADBEEF = State.reset ∧
      (State.reset.redirect 0x102).pc = 0x102 := by decide +kernel

theorem test_loader_later_record_wins :
    answers (launch cfg [] [⟨0x10, [1, 2, 3]⟩, ⟨0x11, [9]⟩]) (fun t => decide (t.mem = [(0x10, 1), (0x11, 9),
      (0x12, 3)])) =
      true := by decide +kernel

theorem test_loader_record_outside_memory :
    launch cfg [] [⟨0xFFF, [1, 2]⟩] = .refused (.loaderRecord 0xFFF 2) := by rfl

/-- The interface of the host: the first step after reset runs the word placed. -/
theorem test_first_step_after_reset :
    regPc (State.reset.withFetchWord 32 0x00A00293) 5 10#32 4#32 = true := by decide +kernel

/-! ### Witnesses: for every statement with hypotheses, a state and operands that meet them together -/

theorem witness_launch : cfg.valid ∧ Memory.wf [] ∧ (∀ c ∈ ([] : Memory), c.1 < cfg.memSize) ∧
    recordsFit cfg.memSize [⟨0xFFE, [1, 2]⟩] ∧ ∃ t, launch cfg [] [⟨0xFFE, [1, 2]⟩] = .next t :=
  ⟨by decide, by decide, by decide, by decide, (next_of_answers (p :=
    fun _ => true) (by decide +kernel)).imp fun _ h => h.1⟩

/-- A step of a state that meets the invariant. -/
theorem witness_StepKeepsTheInvariant :
    (small [] 0x0020A023#32).Inv ∧ ∃ t, step (small [] 0x0020A023#32) = .next t :=
  ⟨by decide +kernel, (next_of_answers (p := fun _ => true) (by decide +kernel)).imp fun _ h => h.1⟩

theorem witness_HostMovesKeepTheInvariant :
    (small [] 0).Inv ∧ (HostMove.debugWrite 0xFFC 4 7).apply (small [] 0) =
      .answered .done { small [] 0 with mem := (small [] 0).mem.write 0xFFC 7 .four } := by decide +kernel

theorem witness_DecodeOfEncodeIsTheInstruction : Instr.wf (.beq 31 0 (-4096)) = true ∧
    Instr.wf (.jal 31 1048574) = true := by
  decide

theorem witness_EncodeOfDecodeIsTheCanonicalWord :
    (⟨.lui, 0x0000007F#32, 0x00000037#32, 0x0000007F#32, 0x00000037#32⟩ : TableRow) ∈ opcodeTable ∧
      TableRow.canonical ⟨.lui, 0x0000007F#32, 0x00000037#32, 0x0000007F#32, 0x00000037#32⟩ 0xFFFFFFB7#32 = true := by
  decide

theorem witness_OpcodeTableIsTheDecoder :
    (⟨.sra, 0x4000707F#32, 0x40005033#32, 0xFE00707F#32, 0x40005033#32⟩ : TableRow) ∈ opcodeTable ∧
      TableRow.selects ⟨.sra, 0x4000707F#32, 0x40005033#32, 0xFE00707F#32, 0x40005033#32⟩ 0xC031D0B3#32 = true ∧
      decode 0xC031D0B3#32 = .instr (.sra 1 3 3) := by decide

/-- The clauses of the space of unrecognized words, at the ends of their ranges. -/
theorem witness_UnrecognizedWordsAreTheFourCases :
    [0x00002063#32, 0x00003063#32, 0x00003003#32, 0x00006003#32, 0x00007003#32, 0x00003023#32,
      0x00007023#32].map decode =
      [.branchFunct3, .branchFunct3, .loadFunct3, .loadFunct3, .loadFunct3, .storeFunct3, .storeFunct3].map
        Decoded.unrecognized ∧
      decode 0x00002023#32 = .instr (.sw 0 0 0) ∧ decode 0x00005003#32 = .instr (.lhu 0 0 0) := by decide

/-- The premises on funct7: free for funct3 001, bit 5 equal for 000 and 101. -/
theorem witness_IgnoredBitsChangeNothing :
    (0b000#3 = 0b000#3 ∨ 0b000#3 = 0b101#3 → (0b0000001#7).getLsbD 5 = (0b1011111#7).getLsbD 5) ∧
      (0b101#3 = 0b000#3 ∨ 0b101#3 = 0b101#3 → (0b0100000#7).getLsbD 5 = (0b1111111#7).getLsbD 5) ∧
      (0b001#3 = 0b000#3 ∨ 0b001#3 = 0b101#3 → (0b0100000#7).getLsbD 5 = (0b0000000#7).getLsbD 5) ∧
      (0b001#3 = 0b001#3 ∨ (0b001#3 = 0b101#3 ∧ (0b1111111#7).getLsbD 5 = (0b0000000#7).getLsbD 5)) ∧
      (0b101#3 = 0b001#3 ∨ (0b101#3 = 0b101#3 ∧ (0b0111111#7).getLsbD 5 = (0b0100000#7).getLsbD 5)) := by decide

/-- The bit indices of the statements over `k < 32`, at both ends, and the byte indices of the mixed-width view. -/
theorem witness_bit_indices : (0 : Nat) < 32 ∧ 31 < 32 ∧ (0 : Nat) < 4 ∧ 3 < 4 := by decide

theorem witness_RegisterFileContract : (0 : Nat) < 1 ∧ 1 < 32 ∧ 0 < 31 ∧ 31 < 32 ∧
    (HostMove.readRegister 31).apply (small [(31, 7)] 0) = .answered (.value 7) (small [(31, 7)] 0) :=
      by decide +kernel

theorem witness_OnlyTheDestinationChanges :
    ∃ t, exec (.addi 5 0 10) (small [] 0) = .next t ∧ (t.readReg 5 != (small [] 0).readReg 5) = true :=
  next_of_answers (by decide +kernel)

/-- Two states that differ in a register the load does not name. -/
theorem witness_OnlyNamedSourcesAreRead :
    (∀ r ∈ Instr.sources (.lw 3 1 0), (small [(2, 1)] 0).readReg r = (small [(2, 9)] 0).readReg r) ∧
      (small [(2, 1)] 0).pc = (small [(2, 9)] 0).pc ∧ (small [(2, 1)] 0).mem = (small [(2, 9)] 0).mem ∧
      (small [(2, 1)] 0).cfg.memSize = (small [(2, 9)] 0).cfg.memSize ∧
      (small [(2, 1)] 0).loopState = (small [(2, 9)] 0).loopState ∧
      (small [(2, 1)] 0).faultInfo = (small [(2, 9)] 0).faultInfo ∧
      (∃ t, exec (.lw 3 1 0) (small [(2, 1)] 0) = .next t ∧ true = true) ∧
      ∃ t, exec (.lw 3 1 0) (small [(2, 9)] 0) = .next t ∧ true = true :=
  ⟨by decide +kernel, by decide +kernel, by decide +kernel, by decide +kernel, by decide +kernel, by decide +kernel,
    next_of_answers (p := fun _ => true) (by decide +kernel), next_of_answers (p :=
      fun _ => true) (by decide +kernel)⟩

/-- The last address in bounds for each length, and the first out of bounds. -/
theorem witness_bounds_of_an_access :
    (0xFFF#32).toNat + Len.bytes .one ≤ (small [] 0).cfg.memSize ∧
      (0xFFE#32).toNat + Len.bytes .two ≤ (small [] 0).cfg.memSize ∧
      (0xFFC#32).toNat + Len.bytes .four ≤ (small [] 0).cfg.memSize ∧
      (small [] 0).cfg.memSize < (0x1000#32).toNat + Len.bytes .one ∧
      (small [] 0).cfg.memSize < (0xFFF#32).toNat + Len.bytes .two ∧
      (small [] 0).cfg.memSize < (0xFFD#32).toNat + Len.bytes .four := by decide +kernel

theorem witness_WriteThenReadReturnsTheData :
    (0xFFF#32).toNat + Len.bytes .one ≤ (small [] 0).cfg.memSize ∧ (0xFF#32).toNat < 2 ^ (8 * Len.bytes .one) ∧
      (small [] 0).timedWrite 0xFFF .one 0xFF =
        ({ (small [] 0).chargeAccess with mem := (small [] 0).mem.write 0xFFF 0xFF .one }, none) ∧
      (0xFFC#32).toNat + Len.bytes .four ≤ (small [] 0).cfg.memSize ∧
        (0xFFFFFFFF#32).toNat < 2 ^ (8 * Len.bytes .four) ∧
      (small [] 0).debugWrite 0xFFC .four 0xFFFFFFFF =
        .answered .done { small [] 0 with mem := (small [] 0).mem.write 0xFFC 0xFFFFFFFF .four } ∧
      Grant.valid ⟨0, 0xFFF, true⟩ = true := by decide +kernel

/-- A fetch and a store that fail: pc = 0xFFD, and `sw x2, 0(x1)` with x1 = 0xFFD. -/
theorem witness_FailingAccessLeavesTheStore :
    { small [] 0 with pc := 0xFFD }.cfg.memSize < (0xFFD#32).toNat + Len.bytes .four ∧
      (0xFFD#32) = { small [] 0 with pc := 0xFFD }.pc ∧
      dataAccess (.sw 1 2 0) = some ⟨.write, .four, 1, 0⟩ ∧ (0xFFD#32) = (small [(1, 0xFFD)] 0).effectiveAddress 1 0 ∧
      (small [(1, 0xFFD)] 0).cfg.memSize < (0xFFD#32).toNat + Len.bytes .four := by decide +kernel

theorem witness_DebugAccessIsATimedAccessWithoutTime : 3 ∉ [1, 2, 4] ∧ 0 ∉ [1, 2, 4] ∧ 31 < 32 := by decide

theorem witness_GrantReadsTheBackingStore :
    Grant.covers ⟨0, 0xFFF, true⟩ 0xFFC#32 = true ∧ Grant.covers ⟨0, 0xFFF, true⟩ 0xFFD#32 = false ∧
      ∃ t, exec (.sw 0 2 0x7FC) (small [] 0) = .next t ∧ true = true :=
  ⟨by decide, by decide, next_of_answers (p := fun _ => true) (by decide +kernel)⟩

theorem witness_OnlyTheHostInvalidatesAGrant :
    { small [] 0x00A00293#32 with grant := some ⟨0, 0xFFF, true⟩ }.grant = some ⟨0, 0xFFF, true⟩ ∧
      ∃ t, step { small [] 0x00A00293#32 with grant := some ⟨0, 0xFFF, true⟩ } = .next t ∧ true = true :=
  ⟨rfl, next_of_answers (p := fun _ => true) (by decide +kernel)⟩

/-- A state that already holds such a record. -/
theorem witness_NoStepRaisesInvalidatedAccess :
    ∃ t, step { small [] 0 with loopState := .faulted, faultInfo := some (.invalidatedAccess 4) } = .next t ∧
      decide (t.faultInfo = some (.invalidatedAccess 4)) = true := next_of_answers (by decide +kernel)

theorem witness_LuiWritesTheUpperImmediate : 0xFFFFF3B7#32 &&& 0x0000007F#32 = 0x00000037#32 := by decide

theorem witness_LoadResults :
    ((small [(1, 0xFFF)] 0).effectiveAddress 1 0).toNat + 1 ≤ (small [(1, 0xFFF)] 0).cfg.memSize ∧
      ((small [(1, 0xFFE)] 0).effectiveAddress 1 0).toNat + 2 ≤ (small [(1, 0xFFE)] 0).cfg.memSize ∧
      ((small [(1, 0xFFC)] 0).effectiveAddress 1 0).toNat + 4 ≤ (small [(1, 0xFFC)] 0).cfg.memSize :=
        by decide +kernel

theorem witness_StoreResults :
    ((small [(1, 0x1000)] 0).effectiveAddress 1 (-1)).toNat + 1 ≤ (small [(1, 0x1000)] 0).cfg.memSize ∧
      ((small [(1, 0x1000)] 0).effectiveAddress 1 (-2)).toNat + 2 ≤ (small [(1, 0x1000)] 0).cfg.memSize ∧
      ((small [(1, 0x1000)] 0).effectiveAddress 1 (-4)).toNat + 4 ≤ (small [(1, 0x1000)] 0).cfg.memSize :=
        by decide +kernel

theorem witness_DataAccessOutOfBoundsFaults :
    dataAccess (.lw 0 1 0) = some ⟨.read, .four, 1, 0⟩ ∧
      (small [(1, 0xFFD)] 0).cfg.memSize < ((small [(1, 0xFFD)] 0).effectiveAddress 1 0).toNat + Len.bytes .four ∧
      dataAccess (.sb 1 2 0) = some ⟨.write, .one, 1, 0⟩ ∧
      (small [(1, 0x1000)] 0).cfg.memSize < ((small [(1, 0x1000)] 0).effectiveAddress 1 0).toNat + Len.bytes .one := by
  decide +kernel

theorem witness_OnlyStoresChangeMemory :
    ∃ t, exec (.sb 1 1 0) (small [(1, 0x80)] 0) = .next t ∧ (t.mem.byte 0x80 != (small [(1,
      0x80)] 0).mem.byte 0x80) = true :=
  next_of_answers (by decide +kernel)

/-- A store that completes, for each width, and a load that forms the same address in the state it leaves. -/
theorem witness_StoreThenLoad :
    (3#5 ≠ 0#5) ∧
      (∃ t, exec (.sw 1 2 0) (small [(1, 0xFFC)] 0) = .next t ∧ (decide (t.loopState = .running) &&
        t.effectiveAddress 1 0 == (small [(1, 0xFFC)] 0).effectiveAddress 1 0) = true) ∧
      (∃ t, exec (.sh 1 2 0) (small [(1, 0xFFE)] 0) = .next t ∧ (decide (t.loopState = .running) &&
        t.effectiveAddress 1 0 == (small [(1, 0xFFE)] 0).effectiveAddress 1 0) = true) ∧
      ∃ t, exec (.sb 1 2 0) (small [(1, 0xFFF)] 0) = .next t ∧ (decide (t.loopState = .running) &&
        t.effectiveAddress 1 0 == (small [(1, 0xFFF)] 0).effectiveAddress 1 0) = true :=
  ⟨by decide, next_of_answers (by decide +kernel), next_of_answers (by decide +kernel),
    next_of_answers (by decide +kernel)⟩

theorem witness_StoreIsSeenByTheNextFetch :
    ((small [(1, 0x104), (2, 0x00A00293)] 0).effectiveAddress 1 0).toNat + 4 ≤ cfg.memSize ∧
      ∃ t, exec (.sw 1 2 0) (small [(1, 0x104), (2, 0x00A00293)] 0) = .next t ∧
        (t.pc == (small [(1, 0x104), (2, 0x00A00293)] 0).effectiveAddress 1 0) = true :=
  ⟨by decide +kernel, next_of_answers (by decide +kernel)⟩

theorem witness_LogicWordsRun :
    [0xFFF34293#32, 0xFFF36293#32, 0xFFF37293#32, 0x007342B3#32, 0x4031E0B3#32, 0x007372B3#32].map
        (fun w => w &&& 0x0000707F#32) =
      [0x00004013#32, 0x00006013#32, 0x00007013#32, 0x00004033#32, 0x00006033#32, 0x00007033#32] := by decide

theorem witness_RightShiftWordsRun :
    [0x02435293#32, 0x8031D0B3#32, 0xC031D0B3#32].map (fun w => w &&& 0x4000707F#32) =
      [0x00005013#32, 0x00005033#32, 0x40005033#32] := by decide

theorem witness_StepRunsTheDecodedInstruction :
    (small [] 0x00A00293#32).AboutToRun 0x00A00293#32 ∧ decode 0x00A00293#32 = .instr (.addi 5 0 10) :=
      by decide +kernel

/-- The last pc whose word lies in memory, and the first whose word does not. -/
theorem witness_pc_at_the_end_of_memory :
    { small [] 0 with pc := 0xFFC }.Ready ∧ (0xFFC#32).toNat + 4 ≤ cfg.memSize ∧
      { small [] 0 with pc := 0xFFD }.Ready ∧ cfg.memSize < (0xFFD#32).toNat + 4 := by decide +kernel

theorem witness_UnrecognizedWordFaults :
    (small [] 0xFFFFFFFF#32).AboutToRun 0xFFFFFFFF#32 ∧ decode 0xFFFFFFFF#32 = .unrecognized .opcode ∧
      (small [] 0x00000073#32).AboutToRun 0x00000073#32 ∧ decode 0x00000073#32 = .unrecognized .system :=
        by decide +kernel

theorem witness_StopRequestHalts :
    { small [] 0 with stopRequested := true }.loopState = .running ∧ { small [] 0 with stopRequested :=
      true }.stopRequested = true :=
  ⟨rfl, rfl⟩

theorem witness_FaultedIsTerminal :
    { small [] 0 with loopState := .faulted }.loopState = .faulted ∧
      HostMove.requestStop.apply { small [] 0 with loopState := .faulted } =
        .answered .done { small [] 0 with loopState := .faulted } ∧
      (0xFFC#32).toNat + Len.bytes .four ≤ cfg.memSize := by decide +kernel

/-- A step that ends Halted, and a host move in Running. -/
theorem witness_OnlyAStopRequestHalts :
    (small [] 0).loopState = .running ∧
      (∃ t, step { small [] 0 with stopRequested := true } = .next t ∧ decide (t.loopState = .halted) = true) ∧
      HostMove.readPc.apply (small [] 0) = .answered (.value 0x100) (small [] 0) :=
  ⟨by decide +kernel, next_of_answers (by decide +kernel), by decide +kernel⟩

/-- A fault of each of the three phases. -/
theorem witness_FaultsArePreciseAndInPhaseOrder :
    (∃ t, step { small [] 0 with pc := 0xFFD } = .next t ∧ decide (t.loopState = .faulted) = true) ∧
      (∃ t, step (small [] 0xFFFFFFFF#32) = .next t ∧ decide (t.loopState = .faulted) = true) ∧
      ∃ t, step (small [(1, 0xFFD)] 0x0000A103#32) = .next t ∧ decide (t.loopState = .faulted) = true :=
  ⟨next_of_answers (by decide +kernel), next_of_answers (by decide +kernel), next_of_answers (by decide +kernel)⟩

/-- A running state that completes, one that faults, and one that is not ready. -/
theorem witness_EveryStepAnswers :
    (small [] 0x00A00293#32).Ready ∧ (small [] 0xFFFFFFFF#32).Ready ∧ ¬ { small [] 0 with loopState :=
      .halted }.Ready := by
  decide +kernel

theorem witness_SimTimeOfACycle :
    (small [(1, 0x80)] 0x0000A183#32).Ready ∧ ∃ t, step (small [(1, 0x80)] 0x0000A183#32) = .next t ∧ true = true :=
  ⟨by decide +kernel, next_of_answers (p := fun _ => true) (by decide +kernel)⟩

/-- A jump to an address that is 2 modulo 4. -/
theorem witness_PcBitZeroStaysZero :
    (small [] 0x0060006F#32).pc.getLsbD 0 = false ∧
      ∃ t, step (small [] 0x0060006F#32) = .next t ∧ (t.pc == 0x106) = true :=
  ⟨by decide +kernel, next_of_answers (by decide +kernel)⟩

/-- Two states alike to a program that are not the same. -/
theorem witness_FetchPathAndTimeAreInvisible :
    (small [] 0x00A00293#32).ArchEq { small [] 0x00A00293#32 with grant := some ⟨0, 0xFFF, true⟩, simTime := 99 } ∧
      small [] 0x00A00293#32 ≠ { small [] 0x00A00293#32 with grant := some ⟨0, 0xFFF, true⟩, simTime := 99 } := by
  decide +kernel

theorem witness_PassiveHostIsInvisible :
    ∀ m ∈ [Move.host (.readRegister 31), .cycle, .host (.debugRead 0xFFFFFFFF 4), .host .readPc,
      .host .invalidateGrant,
      .cycle], m.passive = true := by decide

end Sys2Proof.Tests
end

section
/-! PROOFS, 00_scope.md. The invariant `State.Inv`: one lemma for each update of the state that keeps it, then
reset, the loader feed, an instruction and a step. -/

namespace Sys2Proof.Machine

/-! ### Updates of the state

The invariant reads the parameters, the memory, the grant, the loop state and the fault record, so an update of any
other field keeps it as it stands. -/

namespace State.Inv
variable {s : State}

theorem writeReg (h : s.Inv) (rd : Reg) (v : Word) : (s.writeReg rd v).Inv := h

theorem redirect (h : s.Inv) (p : Word) : (s.redirect p).Inv := h

theorem advance (h : s.Inv) : s.advance.Inv := h

theorem chargeAccess (h : s.Inv) : s.chargeAccess.Inv := h

theorem completeCycle (h : s.Inv) (op : Tag) : (s.completeCycle op).Inv := h

/-- Another memory, canonical and inside [0, MEM_SIZE) (20_memory.md R60). -/
theorem withMem (h : s.Inv) {m : Memory} (hwf : m.wf) (hlt : ∀ c ∈ m, c.1 < s.cfg.memSize) :
    { s with mem := m }.Inv := by
  obtain ⟨hcfg, -, -, hgrant, hfault⟩ := h
  exact ⟨hcfg, hwf, hlt, hgrant, hfault⟩

/-- A write that passed the bounds check (20_memory.md R68, R69). -/
theorem write (h : s.Inv) {ea : Word} {n : Len} (hin : s.inBounds ea n = true) (v : Word) :
    { s with mem := s.mem.write ea.toNat v n }.Inv := by
  have hbound := (s.inBounds_iff ea n).1 hin
  have ⟨_, hwf, hlt, _⟩ := h
  exact h.withMem (Memory.wf_write hwf _ v n) (Memory.lt_of_mem_write hlt hbound)

/-- Loop state and fault record change together (48_fetch_execute_loop.md R225). -/
theorem takeFault (h : s.Inv) (f : Fault) : (s.takeFault f).Inv := by
  obtain ⟨hcfg, hwf, hlt, hgrant, -⟩ := h
  exact ⟨hcfg, hwf, hlt, hgrant, by simp⟩

/-- A running loop holds no fault record, so a halted one holds none. -/
theorem halt (h : s.Inv) (hrun : s.loopState = .running) : s.halt.Inv := by
  obtain ⟨hcfg, hwf, hlt, hgrant, hfault⟩ := h
  exact ⟨hcfg, hwf, hlt, hgrant, by simpa [hrun] using hfault⟩

/-- The window a request yields lies inside the memory because MEM_SIZE is positive (20_memory.md R80). -/
theorem wholeMemory_inside (h : s.Inv) : s.wholeMemory.inside s.cfg.memSize := by
  obtain ⟨⟨hpos, -⟩, -⟩ := h
  exact ⟨Nat.zero_le _, Nat.sub_lt hpos Nat.one_pos⟩

/-- The fetch keeps the grant held or takes one over the whole memory. -/
theorem fetch (h : s.Inv) : s.fetch.1.Inv := by
  have hwhole := h.wholeMemory_inside
  obtain ⟨hcfg, hwf, hlt, hgrant, hfault⟩ := h
  obtain ⟨g, rs, time, heq, rfl | rfl⟩ := s.fetch_fst_eq <;> rw [heq]
  · exact ⟨hcfg, hwf, hlt, hgrant, hfault⟩
  · exact ⟨hcfg, hwf, hlt, by simpa using hwhole, hfault⟩

end State.Inv

/-! ### Reset and the loader feed -/

theorem State.resetWith_inv {cfg : Config} {image : Memory} (hcfg : cfg.valid) (hwf : image.wf)
    (hlt : ∀ c ∈ image, c.1 < cfg.memSize) : (State.resetWith cfg image).Inv :=
  ⟨hcfg, hwf, hlt, by simp, by simp⟩

/-- The memory after the records is the fold of `State.loadImage_next`; each record keeps it canonical and inside. -/
theorem State.Inv.loadImage {s t : State} {records : List Record} (h : s.Inv)
    (hload : s.loadImage records = .next t) : t.Inv := by
  obtain ⟨ht, hfit, hmem⟩ := State.loadImage_next hload
  have ⟨_, hwf, hlt, _⟩ := h
  have hcells : t.mem.wf ∧ ∀ c ∈ t.mem, c.1 < s.cfg.memSize := by
    rw [hmem]
    refine List.foldlRecOn (motive := fun m : Memory => m.wf ∧ ∀ c ∈ m, c.1 < s.cfg.memSize) records _ ⟨hwf, hlt⟩ ?_
    rintro m ⟨hmwf, hmlt⟩ r hr
    exact ⟨Memory.wf_writeBytes hmwf _ _, Memory.lt_of_mem_writeBytes hmlt (hfit r hr)⟩
  rw [ht]
  exact h.withMem hcells.1 hcells.2

/-! ### An instruction and a step -/

theorem State.Inv.exec {i : Instr} {s t : State} (h : s.Inv) (hexec : exec i s = .next t) : t.Inv := by
  obtain ⟨rd, v, p, rfl⟩ | ⟨rd, v, rfl⟩ | ⟨n, ea, v, hin, rfl⟩ | ⟨n, ea, dir, -, rfl⟩ := exec_cases hexec
  · exact (h.writeReg rd v).redirect p
  · exact (h.chargeAccess.writeReg rd v).advance
  · exact (h.chargeAccess.write hin v).advance
  · exact h.chargeAccess.takeFault _

theorem State.Inv.step {s t : State} (h : s.Inv) (hstep : step s = .next t) : t.Inv := by
  obtain ⟨-, rfl⟩ | ⟨hrun, -, rfl⟩ | ⟨-, -, f, -, rfl⟩ | ⟨-, -, inst, why, -, -, rfl⟩ |
    ⟨-, -, inst, i, u, -, -, hexec, hend⟩ := step_cases hstep
  · exact h
  · exact h.halt hrun
  · exact h.fetch.takeFault f
  · exact h.fetch.takeFault _
  · have hu : u.Inv := h.fetch.exec hexec
    obtain ⟨-, rfl⟩ | ⟨-, rfl⟩ := hend
    · exact hu.completeCycle i.tag
    · exact hu

/-- Settles O4: each case of `step_cases` is built of updates that keep the invariant. -/
theorem stepKeepsTheInvariant : Obligations.StepKeepsTheInvariant :=
  fun _ _ h hstep => h.step hstep

/-- Settles O3: a launch is `State.resetWith` followed by the loader feed, and both keep the invariant. -/
theorem resetMeetsTheInvariant : Obligations.ResetMeetsTheInvariant := by
  refine ⟨State.resetWith_inv (by decide) Memory.wf_nil (by simp), ?_⟩
  intro cfg prior records t hcfg hwf hlt hlaunch
  exact (State.resetWith_inv hcfg hwf hlt).loadImage hlaunch

end Sys2Proof.Machine
end

section
/-! PROOFS, 10_state.md. The register file, what an instruction does with its registers, and bit 0 of pc: one lemma
for each template of Ops.lean, then an instruction and a step. -/

namespace Sys2Proof.Machine

/-! ### Reset (R50) -/

/-- An answered launch is `State.resetWith` with another memory: the loader feed changes nothing else. -/
theorem launch_eq_resetWith {cfg : Config} {prior : Memory} {records : List Record} {t : State}
    (h : launch cfg prior records = .next t) : t = State.resetWith cfg t.mem := by
  obtain ⟨ht, -, -⟩ := State.loadImage_next h
  exact ht

/-- Settles O1: an answered launch leaves what `State.resetWith` puts in every item but memory. -/
theorem launchLeavesTheResetState : Obligations.LaunchLeavesTheResetState := by
  intro cfg prior records t hlaunch
  rw [launch_eq_resetWith hlaunch]
  exact ⟨State.resetWith_readReg cfg _, rfl, rfl, rfl, rfl, rfl, rfl, rfl, rfl, rfl⟩

/-! ### The register an instruction changes (R35) -/

section RegisterFrames
variable {s t : State}

theorem State.writeBack_onlyReg {rd : Reg} {v : Word} (h : s.writeBack rd v = .next t) : s.OnlyReg t rd v := by
  cases h
  exact s.writeReg_onlyReg rd v

theorem State.link_onlyReg {rd : Reg} {p : Word} (h : s.link rd p = .next t) : s.OnlyReg t rd s.pcNext := by
  cases h
  exact s.writeReg_onlyReg rd s.pcNext

theorem State.branch_sameRegs {c : Bool} {offset : Word} (h : s.branch c offset = .next t) : s.SameRegs t := by
  rw [State.branch_eq] at h
  cases h
  exact fun _ => rfl

/-- A load writes its destination in bounds, and no register where it faults. -/
theorem State.load_onlyReg_or_sameRegs {n : Len} {ext : Word → Word} {rd : Reg} {ea : Word}
    (h : s.load n ext rd ea = .next t) : (∃ v, s.OnlyReg t rd v) ∨ s.SameRegs t := by
  obtain ⟨-, rfl⟩ | ⟨-, rfl⟩ := State.load_next h
  · exact .inl ⟨_, s.chargeAccess.writeReg_onlyReg rd _⟩
  · exact .inr fun _ => rfl

theorem State.store_sameRegs {n : Len} {ea v : Word} (h : s.store n ea v = .next t) : s.SameRegs t := by
  obtain ⟨-, rfl⟩ | ⟨-, rfl⟩ := State.store_next h <;> exact fun _ => rfl

/-- What an answered instruction does to the registers: its destination, if it has one, takes a value and no other
register changes, or none changes at all. -/
theorem exec_changes_only_dest {i : Instr} (hexec : exec i s = .next t) :
    (∃ rd v, i.dest = some rd ∧ s.OnlyReg t rd v) ∨ s.SameRegs t := by
  cases i with
  | lui rd | auipc rd => exact .inl ⟨rd, _, rfl, State.writeBack_onlyReg hexec⟩
  | jal rd | jalr rd => exact .inl ⟨rd, _, rfl, State.link_onlyReg hexec⟩
  | beq | bne | blt | bge | bltu | bgeu => exact .inr (State.branch_sameRegs hexec)
  | lb rd | lh rd | lw rd | lbu rd | lhu rd =>
    exact (State.load_onlyReg_or_sameRegs hexec).imp_left fun ⟨v, honly⟩ => ⟨rd, v, rfl, honly⟩
  | sb | sh | sw => exact .inr (State.store_sameRegs hexec)
  | addi rd | slti rd | sltiu rd | xori rd | ori rd | andi rd | slli rd | srli rd | srai rd =>
    exact .inl ⟨rd, _, rfl, State.writeBack_onlyReg hexec⟩
  | add rd | sub rd | sll rd | slt rd | sltu rd | xor rd | srl rd | sra rd | or rd | and rd =>
    exact .inl ⟨rd, _, rfl, State.writeBack_onlyReg hexec⟩

end RegisterFrames

/-- Settles O15: a register that reads differently is the one of `State.OnlyReg`, which is never x0. -/
theorem onlyTheDestinationChanges : Obligations.OnlyTheDestinationChanges := by
  intro i s t r hexec hchanged
  obtain ⟨rd, v, hdest, honly⟩ | hsame := exec_changes_only_dest hexec
  · have hr : r = rd ∧ rd ≠ 0#5 := by
      by_contra hother
      exact hchanged ((honly r).trans (if_neg hother))
    obtain ⟨rfl, hne⟩ := hr
    exact ⟨hdest, hne⟩
  · exact absurd (hsame r) hchanged

/-! ### Two states alike but for their registers (R35)

`State.Agree` is what two runs of one instruction share besides its sources, and each update of the state keeps it.
`State.RegsAlike` is what the two runs do to the registers. -/

/-- Two states alike in pc, memory and its size, loop state and fault record. -/
structure State.Agree (s s' : State) : Prop where
  pc : s.pc = s'.pc
  mem : s.mem = s'.mem
  memSize : s.cfg.memSize = s'.cfg.memSize
  loopState : s.loopState = s'.loopState
  faultInfo : s.faultInfo = s'.faultInfo

/-- From s and s' to t and t', each register ends equal in both, or is left as it was in both. -/
def State.RegsAlike (s s' t t' : State) : Prop :=
  ∀ r, t.readReg r = t'.readReg r ∨ (t.readReg r = s.readReg r ∧ t'.readReg r = s'.readReg r)

/-- The two ends of one instruction run from s and s' are alike. -/
def State.EndAlike (s s' t t' : State) : Prop := t.Agree t' ∧ s.RegsAlike s' t t'

theorem State.RegsAlike.of_sameRegs {s s' t t' : State} (h : s.SameRegs t) (h' : s'.SameRegs t') :
    s.RegsAlike s' t t' :=
  fun r => .inr ⟨h r, h' r⟩

/-- One value written to one register in both. -/
theorem State.RegsAlike.of_onlyReg {s s' t t' : State} {rd : Reg} {v : Word} (h : s.OnlyReg t rd v)
    (h' : s'.OnlyReg t' rd v) : s.RegsAlike s' t t' := by
  intro r
  rw [h r, h' r]
  by_cases hr : r = rd ∧ rd ≠ 0#5
  · exact .inl (by rw [if_pos hr, if_pos hr])
  · exact .inr ⟨if_neg hr, if_neg hr⟩

namespace State.Agree
variable {s s' t t' : State}

theorem writeReg (h : s.Agree s') (rd : Reg) (v v' : Word) : (s.writeReg rd v).Agree (s'.writeReg rd v') :=
  ⟨h.pc, h.mem, h.memSize, h.loopState, h.faultInfo⟩

theorem redirect (h : s.Agree s') (p : Word) : (s.redirect p).Agree (s'.redirect p) :=
  ⟨rfl, h.mem, h.memSize, h.loopState, h.faultInfo⟩

theorem advance (h : s.Agree s') : s.advance.Agree s'.advance :=
  ⟨congrArg (· + 4) h.pc, h.mem, h.memSize, h.loopState, h.faultInfo⟩

theorem chargeAccess (h : s.Agree s') : s.chargeAccess.Agree s'.chargeAccess :=
  ⟨h.pc, h.mem, h.memSize, h.loopState, h.faultInfo⟩

theorem takeFault (h : s.Agree s') (f : Fault) : (s.takeFault f).Agree (s'.takeFault f) :=
  ⟨h.pc, h.mem, h.memSize, rfl, rfl⟩

theorem write (h : s.Agree s') (a : Nat) (v : Word) (n : Len) :
    { s with mem := s.mem.write a v n }.Agree { s' with mem := s'.mem.write a v n } :=
  ⟨h.pc, congrArg (·.write a v n) h.mem, h.memSize, h.loopState, h.faultInfo⟩

theorem inBounds (h : s.Agree s') (a : Word) (n : Len) : s.inBounds a n = s'.inBounds a n := by
  unfold State.inBounds
  rw [h.memSize]

/-! Each template, given the same operands, ends alike. -/

theorem writeBack (h : s.Agree s') {rd : Reg} {v v' : Word} (ht : s.writeBack rd v = .next t)
    (ht' : s'.writeBack rd v' = .next t') (hv : v = v') : s.EndAlike s' t t' := by
  subst hv
  have hregs : s.RegsAlike s' t t' := .of_onlyReg (State.writeBack_onlyReg ht) (State.writeBack_onlyReg ht')
  cases ht
  cases ht'
  exact ⟨(h.writeReg rd v v).advance, hregs⟩

theorem link (h : s.Agree s') {rd : Reg} {p p' : Word} (ht : s.link rd p = .next t)
    (ht' : s'.link rd p' = .next t') (hp : p = p') : s.EndAlike s' t t' := by
  subst hp
  have hnext : s'.pcNext = s.pcNext := congrArg (· + 4) h.pc.symm
  have hregs : s.RegsAlike s' t t' := .of_onlyReg (State.link_onlyReg ht) (hnext ▸ State.link_onlyReg ht')
  cases ht
  cases ht'
  exact ⟨(h.writeReg rd _ _).redirect p, hregs⟩

theorem branch (h : s.Agree s') {c c' : Bool} {offset : Word} (ht : s.branch c offset = .next t)
    (ht' : s'.branch c' offset = .next t') (hc : c = c') : s.EndAlike s' t t' := by
  subst hc
  rw [State.branch_eq] at ht ht'
  rw [← h.pc] at ht'
  cases ht
  cases ht'
  exact ⟨h.redirect _, .of_sameRegs (fun _ => rfl) (fun _ => rfl)⟩

theorem accessFault (h : s.Agree s') (ea : Word) (n : Len) (dir : Direction) :
    s.EndAlike s' (s.chargeAccess.takeFault (.accessFault s.pc ea n dir))
      (s'.chargeAccess.takeFault (.accessFault s'.pc ea n dir)) := by
  rw [← h.pc]
  exact ⟨h.chargeAccess.takeFault _, .of_sameRegs (fun _ => rfl) (fun _ => rfl)⟩

theorem load (h : s.Agree s') {n : Len} {ext : Word → Word} {rd : Reg} {ea ea' : Word}
    (ht : s.load n ext rd ea = .next t) (ht' : s'.load n ext rd ea' = .next t') (hea : ea = ea') :
    s.EndAlike s' t t' := by
  subst hea
  have hbounds := h.inBounds ea n
  obtain ⟨hin, rfl⟩ | ⟨hin, rfl⟩ := State.load_next ht <;> rw [hbounds] at hin
  · rw [State.load_in hin, ← h.mem] at ht'
    cases ht'
    exact ⟨(h.chargeAccess.writeReg rd _ _).advance,
      .of_onlyReg (s.chargeAccess.writeReg_onlyReg rd _) (s'.chargeAccess.writeReg_onlyReg rd _)⟩
  · rw [State.load_out hin] at ht'
    cases ht'
    exact h.accessFault ea n .read

theorem store (h : s.Agree s') {n : Len} {ea ea' v v' : Word} (ht : s.store n ea v = .next t)
    (ht' : s'.store n ea' v' = .next t') (hea : ea = ea') (hv : v = v') : s.EndAlike s' t t' := by
  subst hea hv
  have hbounds := h.inBounds ea n
  obtain ⟨hin, rfl⟩ | ⟨hin, rfl⟩ := State.store_next ht <;> rw [hbounds] at hin
  · rw [State.store_in hin] at ht'
    cases ht'
    exact ⟨(h.chargeAccess.write ea.toNat v n).advance, .of_sameRegs (fun _ => rfl) (fun _ => rfl)⟩
  · rw [State.store_out hin] at ht'
    cases ht'
    exact h.accessFault ea n .write

/-- An instruction run from two states alike, also in its sources, ends alike: its family's template does, and the
operands the template is given are the same, since they are made of the sources, pc and the word's own fields. -/
theorem exec {i : Instr} (h : s.Agree s') (hsources : ∀ r ∈ i.sources, s.readReg r = s'.readReg r)
    (ht : exec i s = .next t) (ht' : exec i s' = .next t') : s.EndAlike s' t t' := by
  have hpc := h.pc
  cases i <;> simp only [Instr.sources, List.forall_mem_cons, List.not_mem_nil, false_implies, implies_true,
    and_true] at hsources
  case lui => exact h.writeBack ht ht' rfl
  case auipc => exact h.writeBack ht ht' (by rw [hpc])
  case jal => exact h.link ht ht' (by rw [hpc])
  case jalr => exact h.link ht ht' (by rw [hsources])
  case beq | bne | blt | bge | bltu | bgeu => exact h.branch ht ht' (by rw [hsources.1, hsources.2])
  case lb | lh | lw | lbu | lhu => exact h.load ht ht' (congrArg (· + _) hsources)
  case sb | sh | sw => exact h.store ht ht' (congrArg (· + _) hsources.1) hsources.2
  case addi | slti | sltiu | xori | ori | andi | slli | srli | srai => exact h.writeBack ht ht' (by rw [hsources])
  case add | sub | sll | slt | sltu | xor | srl | sra | or | and =>
    exact h.writeBack ht ht' (by rw [hsources.1, hsources.2])

end State.Agree

/-- Settles O16: the hypotheses are `State.Agree` and the sources, the conclusion is `State.EndAlike`. -/
theorem onlyNamedSourcesAreRead : Obligations.OnlyNamedSourcesAreRead := by
  intro i s s' t t' hsources hpc hmem hsize hloop hfault ht ht'
  have hagree : s.Agree s' := ⟨hpc, hmem, hsize, hloop, hfault⟩
  obtain ⟨hend, hregs⟩ := hagree.exec hsources ht ht'
  exact ⟨hend.pc, hend.mem, hend.loopState, hend.faultInfo, hregs⟩

/-! ### Bit 0 of pc (R41) -/

section NextPc
variable {s t : State}

/-! Where each template leaves pc. -/

theorem State.writeBack_pc {rd : Reg} {v : Word} (h : s.writeBack rd v = .next t) : t.pc = s.pc + 4 := by
  cases h
  rfl

theorem State.link_pc {rd : Reg} {p : Word} (h : s.link rd p = .next t) : t.pc = p := by
  cases h
  rfl

theorem State.branch_pc {c : Bool} {offset : Word} (h : s.branch c offset = .next t) :
    t.pc = if c then s.pc + offset else s.pc + 4 := by
  rw [State.branch_eq] at h
  cases h
  rfl

/-- A load continues, or faults and leaves pc. -/
theorem State.load_pc {n : Len} {ext : Word → Word} {rd : Reg} {ea : Word} (h : s.load n ext rd ea = .next t) :
    t.pc = s.pc + 4 ∨ t.pc = s.pc := by
  obtain ⟨-, rfl⟩ | ⟨-, rfl⟩ := State.load_next h
  · exact .inl rfl
  · exact .inr rfl

/-- A store continues, or faults and leaves pc. -/
theorem State.store_pc {n : Len} {ea v : Word} (h : s.store n ea v = .next t) :
    t.pc = s.pc + 4 ∨ t.pc = s.pc := by
  obtain ⟨-, rfl⟩ | ⟨-, rfl⟩ := State.store_next h
  · exact .inl rfl
  · exact .inr rfl

/-! Sums and sign extensions keep bit 0 at 0. -/

/-- No carry enters bit 0 of a sum. -/
theorem add_bit_zero {a b : Word} (ha : a.getLsbD 0 = false) (hb : b.getLsbD 0 = false) :
    (a + b).getLsbD 0 = false := by
  rw [BitVec.getLsbD_add (by decide), ha, hb, BitVec.carry_zero]
  rfl

theorem signExtend_bit_zero {n : Nat} {x : BitVec n} (hn : 0 < n) (h : x.getLsbD 0 = false) :
    (x.signExtend 32).getLsbD 0 = false := by
  simp only [BitVec.getLsbD_signExtend, hn, h, if_true, Bool.and_false]

/-- A well-formed instruction keeps bit 0 of pc at 0: pc + 4 and pc plus an even offset are even, JALR clears the bit,
and a fault leaves pc. -/
theorem exec_pc_bit_zero {i : Instr} (hwf : i.wf = true) (hpc : s.pc.getLsbD 0 = false)
    (hexec : exec i s = .next t) : t.pc.getLsbD 0 = false := by
  have hnext : (s.pc + 4).getLsbD 0 = false := add_bit_zero hpc (by decide)
  have hmemory : t.pc = s.pc + 4 ∨ t.pc = s.pc → t.pc.getLsbD 0 = false := by
    rintro (h | h) <;> rw [h] <;> assumption
  have hbranch : ∀ {c : Bool} {offset : BitVec 13}, s.branch c (value13 offset) = .next t →
      (!offset.getLsbD 0) = true → t.pc.getLsbD 0 = false := by
    intro c offset h heven
    rw [State.branch_pc h]
    cases c
    · exact hnext
    · exact add_bit_zero hpc (signExtend_bit_zero (by decide) (Bool.not_eq_true' _ ▸ heven))
  cases i with
  | jal rd offset =>
    have heven : offset.getLsbD 0 = false := Bool.not_eq_true' _ ▸ hwf
    rw [State.link_pc hexec]
    exact add_bit_zero hpc (signExtend_bit_zero (by decide) heven)
  | jalr =>
    rw [State.link_pc hexec, BitVec.getLsbD_and]
    exact Bool.and_false _
  | beq | bne | blt | bge | bltu | bgeu => exact hbranch hexec hwf
  | lb | lh | lw | lbu | lhu => exact hmemory (State.load_pc hexec)
  | sb | sh | sw => exact hmemory (State.store_pc hexec)
  | lui | auipc | addi | slti | sltiu | xori | ori | andi | slli | srli | srai => rwa [State.writeBack_pc hexec]
  | add | sub | sll | slt | sltu | xor | srl | sra | or | and => rwa [State.writeBack_pc hexec]

end NextPc

/-- Settles O54: a decoded instruction is well formed, and every other step leaves pc. -/
theorem pcBitZeroStaysZero : Obligations.PcBitZeroStaysZero := by
  intro s t hpc hstep
  have hfetch : s.fetch.1.pc.getLsbD 0 = false := by rwa [State.fetch_fst_pc]
  obtain ⟨-, rfl⟩ | ⟨-, -, rfl⟩ | ⟨-, -, f, -, rfl⟩ | ⟨-, -, inst, why, -, -, rfl⟩ |
    ⟨-, -, inst, i, u, -, hdecode, hexec, hend⟩ := step_cases hstep
  · exact hpc
  · exact hpc
  · exact hfetch
  · exact hfetch
  · obtain ⟨-, hwf, -⟩ := tag_of_decode hdecode
    have hu : u.pc.getLsbD 0 = false := exec_pc_bit_zero hwf hfetch hexec
    obtain ⟨-, rfl⟩ | ⟨-, rfl⟩ := hend <;> exact hu

/-! ### The register file (R33) -/

theorem HostMove.apply_readRegister {index : Nat} (h : index < 32) (s : State) :
    (HostMove.readRegister index).apply s = .answered (.value (s.readReg (BitVec.ofNat 5 index))) s :=
  if_pos h

theorem HostMove.apply_writeRegister {index : Nat} (h : index < 32) (v : Word) (s : State) :
    (HostMove.writeRegister index v).apply s = .answered .done (s.writeReg (BitVec.ofNat 5 index) v) :=
  if_pos h

/-- An index of 1 to 31 is not that of x0. -/
theorem ofNat_index_ne_zero {index : Nat} (hpos : 0 < index) (hlt : index < 32) : BitVec.ofNat 5 index ≠ 0#5 := by
  intro e
  have := congrArg BitVec.toNat e
  simp only [BitVec.toNat_ofNat] at this
  omega

/-- Settles O14: a read answers the register, a write is `State.writeReg`, and `read_pc` and `write_pc` are pc. -/
theorem registerFileContract : Obligations.RegisterFileContract := by
  intro s v
  refine ⟨fun index hlt => HostMove.apply_readRegister hlt s, ?_, rfl, rfl, rfl, ?_⟩
  · intro index hpos hlt
    have hne := ofNat_index_ne_zero hpos hlt
    refine ⟨_, HostMove.apply_writeRegister hlt v s, ?_, ?_, rfl, rfl, ⟨rfl, rfl, rfl, rfl, rfl, rfl, rfl⟩, rfl⟩
    · rw [HostMove.apply_readRegister hlt, State.readReg_writeReg, if_pos ⟨rfl, hne⟩]
    · intro r hr
      rw [State.readReg_writeReg, if_neg (fun h => hr h.1)]
  · exact ⟨_, rfl, rfl, fun _ => rfl, rfl, ⟨rfl, rfl, rfl, rfl, rfl, rfl, rfl⟩, rfl⟩

end Sys2Proof.Machine
end

section
/-! PROOFS, 20_memory.md. Memory and its access modes, the fetch path and its grant, and what an instruction and a
step do with them: simulated time, the parameters, the grant and the fault record. -/

namespace Sys2Proof.Machine

/-! ### Values written and read back (R71, R73) -/

/-- A value that fits in the length of an access is read back whole. -/
theorem Memory.read_write {v : Word} {n : Len} (hfit : v.toNat < 2 ^ (8 * n.bytes)) (m : Memory) (a : Nat) :
    (m.write a v n).read a n = v := by
  refine BitVec.eq_of_getLsbD_eq fun i _ => ?_
  rw [Memory.getLsbD_read_write]
  by_cases hi : i < 8 * n.bytes
  · simp [hi]
  · have hzero : v.getLsbD i = false :=
      Nat.testBit_lt_two_pow (hfit.trans_le (Nat.pow_le_pow_right (by decide) (by omega)))
    simp [hi, hzero]

/-- A read inside a word just written is that slice of the word. -/
theorem Memory.read_write_slice (m : Memory) (a : Nat) (v : Word) {k : Nat} {n : Len} (h : k + n.bytes ≤ 4) :
    (m.write a v .four).read (a + k) n = (v.extractLsb' (8 * k) (8 * n.bytes)).setWidth 32 := by
  refine BitVec.eq_of_getLsbD_eq fun i hi => ?_
  rw [Memory.getLsbD_read, BitVec.getLsbD_setWidth, BitVec.getLsbD_extractLsb', decide_eq_true hi, Bool.true_and]
  by_cases hin : i < 8 * n.bytes
  · have hbyte : a ≤ a + k + i / 8 ∧ a + k + i / 8 < a + Len.four.bytes := by
      change _ ∧ _ < a + 4
      omega
    rw [Memory.byte_write, if_pos hbyte, BitVec.getLsbD_extractLsb', decide_eq_true (Nat.mod_lt i (by decide)),
      Bool.true_and, show 8 * (a + k + i / 8 - a) + i % 8 = 8 * k + i by omega]
  · simp only [hin, decide_false, Bool.false_and]

/-- Settles O22: the narrow reads are slices of the word, and the word read is its four bytes put together. -/
theorem mixedWidthView : Obligations.MixedWidthView := by
  intro m a v b0 b1 b2 b3
  refine ⟨m.read_write_slice a v (k := 0) (n := .two) (by decide), m.read_write_slice a v (n := .two) (by decide),
    m.read_write_slice a v (n := .two) (by decide), fun i hi => m.read_write_slice a v (n := .one) hi, ?_⟩
  simp [Memory.read]

/-! ### The bounds check is the condition of every access mode (R69, R70) -/

section Bounds
variable {s : State} {a : Word} {n : Len}

theorem State.inBounds_eq_false_iff : s.inBounds a n = false ↔ s.cfg.memSize < a.toNat + n.bytes := by
  rw [← Bool.not_eq_true, s.inBounds_iff, not_le]

/-- The answer of a timed read, by the bounds check. -/
theorem State.timedRead_snd (s : State) (a : Word) (n : Len) :
    (s.timedRead a n).2 = if a.toNat + n.bytes ≤ s.cfg.memSize then .ok (s.mem.read a.toNat n)
      else .error (.accessFault s.pc a n .read) := by
  by_cases h : a.toNat + n.bytes ≤ s.cfg.memSize
  · rw [if_pos h, State.timedRead_in ((s.inBounds_iff a n).2 h)]
  · rw [if_neg h, State.timedRead_out (State.inBounds_eq_false_iff.2 (not_le.1 h))]

theorem State.debugRead_in (h : s.inBounds a n = true) :
    s.debugRead a n = .answered (.value (s.mem.read a.toNat n)) s := by
  simp [State.debugRead, State.readAccess, h]

theorem State.debugRead_out (h : s.inBounds a n = false) : s.debugRead a n = .answered .outOfBounds s := by
  simp [State.debugRead, State.readAccess, h]

theorem State.debugWrite_in (h : s.inBounds a n = true) (v : Word) :
    s.debugWrite a n v = .answered .done { s with mem := s.mem.write a.toNat v n } := by
  simp [State.debugWrite, State.writeAccess, h]

theorem State.debugWrite_out (h : s.inBounds a n = false) (v : Word) :
    s.debugWrite a n v = .answered .outOfBounds s := by
  simp [State.debugWrite, State.writeAccess, h]

end Bounds

/-- Through a valid grant a word is read as by a timed read at that moment (R83). -/
theorem State.grantRead_of_valid {g : Grant} (h : g.valid = true) (s : State) (a : Word) :
    s.grantRead g a = (s.timedRead a .four).2 := by
  unfold State.grantRead
  rw [if_pos h]
  rfl

/-! ### The fetch path (R65, R82, R84) -/

theorem Grant.valid_of_covers {g : Grant} {a : Word} (h : g.covers a = true) : g.valid = true := by
  simp only [Grant.covers, Bool.and_eq_true] at h
  exact h.1.1

/-- The grant the fetch path uses is one it checked (R82). -/
theorem State.covers_of_usableGrant {s : State} {a : Word} {g : Grant} (h : s.usableGrant a = some g) :
    g.covers a = true := by
  unfold State.usableGrant at h
  split at h
  · split at h
    · cases h
      assumption
    · cases h
  · cases h

@[simp] theorem State.renewGrant_pc (s : State) : s.renewGrant.pc = s.pc := by
  obtain h | ⟨_, h⟩ | ⟨_, h⟩ := s.renewGrant_cases <;> rw [h]

/-- Renewing the grant does not show in a timed read. -/
theorem State.renewGrant_timedRead_snd (s : State) (a : Word) (n : Len) :
    (s.renewGrant.timedRead a n).2 = (s.timedRead a n).2 := by
  obtain h | ⟨_, h⟩ | ⟨_, h⟩ := s.renewGrant_cases <;> rw [h] <;> rfl

/-- A valid grant is not renewed. -/
theorem State.renewGrant_of_valid {s : State} {g : Grant} (h : s.grant = some g) (hvalid : g.valid = true) :
    s.renewGrant = s := by
  obtain ⟨first, last, valid⟩ := g
  obtain rfl : valid = true := hvalid
  unfold State.renewGrant
  rw [h]

/-- The fetch on either path: the answer of a timed read at pc, on the state with the grant renewed, which a timed
transaction charges and a grant does not. -/
theorem State.fetch_eq (s : State) :
    s.fetch = (if s.fetchesByGrant then s.renewGrant else s.renewGrant.chargeAccess, (s.timedRead s.pc .four).2) := by
  unfold State.fetch State.fetchesByGrant
  dsimp only
  rw [State.renewGrant_pc]
  cases hg : s.renewGrant.usableGrant s.pc with
  | none => exact Prod.ext rfl (s.renewGrant_timedRead_snd s.pc .four)
  | some g =>
    have hvalid := Grant.valid_of_covers (State.covers_of_usableGrant hg)
    exact Prod.ext rfl ((State.grantRead_of_valid hvalid _ _).trans (s.renewGrant_timedRead_snd s.pc .four))

theorem State.fetch_snd (s : State) :
    s.fetch.2 = if s.pc.toNat + 4 ≤ s.cfg.memSize then .ok (s.mem.read s.pc.toNat .four)
      else .error (.accessFault s.pc s.pc .four .read) := by
  rw [State.fetch_eq]
  exact s.timedRead_snd s.pc .four

theorem State.fetch_snd_in {s : State} (h : s.pc.toNat + 4 ≤ s.cfg.memSize) :
    s.fetch.2 = .ok (s.mem.read s.pc.toNat .four) := by
  rw [State.fetch_snd, if_pos h]

theorem State.fetch_snd_out {s : State} (h : s.cfg.memSize < s.pc.toNat + 4) :
    s.fetch.2 = .error (.accessFault s.pc s.pc .four .read) := by
  rw [State.fetch_snd, if_neg (not_le.2 h)]

/-- What the answer of a fetch says of pc and memory. -/
theorem State.fetch_ok {s : State} {w : Word} (h : s.fetch.2 = .ok w) :
    s.pc.toNat + 4 ≤ s.cfg.memSize ∧ s.mem.read s.pc.toNat .four = w := by
  rw [State.fetch_snd] at h
  split at h
  · next hin => exact ⟨hin, Except.ok.inj h⟩
  · cases h

/-- The one fault of a fetch. -/
theorem State.fetch_error {s : State} {f : Fault} (h : s.fetch.2 = .error f) :
    s.cfg.memSize < s.pc.toNat + 4 ∧ f = .accessFault s.pc s.pc .four .read := by
  rw [State.fetch_snd] at h
  split at h
  · cases h
  · next hout => exact ⟨not_le.1 hout, (Except.error.inj h).symm⟩

/-- All that a fetch changes. -/
theorem State.fetch_fst_frame (s : State) :
    s.fetch.1 = { s with
      grant := s.fetch.1.grant, grantRequests := s.fetch.1.grantRequests,
      simTime := s.simTime + if s.fetchesByGrant then 0 else s.cfg.accessLatency } := by
  rw [State.fetch_eq]
  obtain h | ⟨_, h⟩ | ⟨_, h⟩ := s.renewGrant_cases <;> rw [h] <;> cases s.fetchesByGrant <;> rfl

@[simp] theorem State.fetch_fst_simTime (s : State) :
    s.fetch.1.simTime = s.simTime + if s.fetchesByGrant then 0 else s.cfg.accessLatency := by
  rw [State.fetch_fst_frame]

/-- A fetch keeps a valid grant (R81). -/
theorem State.fetch_fst_grant_of_valid {s : State} {g : Grant} (h : s.grant = some g) (hvalid : g.valid = true) :
    s.fetch.1.grant = some g := by
  rw [State.fetch_eq, State.renewGrant_of_valid h hvalid]
  cases s.fetchesByGrant <;> exact h

/-- Settles O23: both clauses are the lemmas of the fetch path. -/
theorem fetchIsTheSameByEitherPath : Obligations.FetchIsTheSameByEitherPath :=
  fun s => ⟨s.fetch_snd, s.fetch_fst_frame⟩

/-! ### The access modes compared (R67 to R71, R77) -/

/-- Settles O17: in bounds a timed write is `Memory.write` and a timed read is `Memory.read`. -/
theorem accessesMoveTheirBytes : Obligations.AccessesMoveTheirBytes := by
  intro s a n v hin
  have hbounds := (s.inBounds_iff a n).2 hin
  refine ⟨⟨_, State.timedWrite_in hbounds v, s.write_onlyBytes _ a n v rfl, fun _ => rfl, rfl,
    ⟨rfl, rfl, rfl, rfl, rfl, rfl, rfl⟩⟩, ?_⟩
  exact ⟨_, _, State.timedRead_in hbounds, fun _ => rfl, fun _ => rfl, rfl, ⟨rfl, rfl, rfl, rfl, rfl, rfl, rfl⟩,
    fun k _ => s.mem.getLsbD_read a.toNat n k⟩

/-- Settles O18: both writes leave the memory of `Memory.write` and the bounds as they were, and every mode then
answers `Memory.read` of it. -/
theorem writeThenReadReturnsTheData : Obligations.WriteThenReadReturnsTheData := by
  intro s a n v hin hfit t hwrite
  have hbounds := (s.inBounds_iff a n).2 hin
  have ⟨hmem, hcfg⟩ : t.mem = s.mem.write a.toNat v n ∧ t.cfg = s.cfg := by
    rw [State.timedWrite_in hbounds, State.debugWrite_in hbounds] at hwrite
    obtain h | h := hwrite <;> cases h <;> exact ⟨rfl, rfl⟩
  have hbounds' : t.inBounds a n = true := (t.inBounds_iff a n).2 (hcfg ▸ hin)
  have hread : t.mem.read a.toNat n = v := by rw [hmem, Memory.read_write hfit]
  have htimed : (t.timedRead a n).2 = .ok v := by rw [State.timedRead_in hbounds', hread]
  refine ⟨htimed, by rw [State.debugRead_in hbounds', hread], ?_⟩
  rintro g rfl hvalid
  rw [State.grantRead_of_valid hvalid, htimed]

/-- Settles O19: each mode answers one way in bounds and another way out of bounds. -/
theorem boundsCheckIsTheOnlyCondition : Obligations.BoundsCheckIsTheOnlyCondition := by
  intro s a n v
  have hfetch : (∃ u, s.fetch.2 = .ok u) ↔ s.pc.toNat + 4 ≤ s.cfg.memSize :=
    ⟨fun ⟨_, h⟩ => (State.fetch_ok h).1, fun h => ⟨_, State.fetch_snd_in h⟩⟩
  rw [← s.inBounds_iff a n]
  cases hin : s.inBounds a n with
  | true =>
    simp [State.timedRead_in hin, State.timedWrite_in hin, State.debugRead_in hin, State.debugWrite_in hin, hfetch]
  | false =>
    simp [State.timedRead_out hin, State.timedWrite_out hin, State.debugRead_out hin, State.debugWrite_out hin, hfetch]

/-- Settles O21: in bounds and out of bounds the debug access and the timed one are the same `Memory` operation. -/
theorem debugAccessIsATimedAccessWithoutTime : Obligations.DebugAccessIsATimedAccessWithoutTime := by
  intro s a n v
  refine ⟨?_, ?_, fun length hlen => ?_, fun index hindex => ?_⟩
  · simp only [HostMove.apply, Len.ofNat?_bytes]
    cases hin : s.inBounds a n with
    | true => rw [State.debugRead_in hin, State.timedRead_in hin]
    | false => rw [State.debugRead_out hin, State.timedRead_out hin]
  · simp only [HostMove.apply, Len.ofNat?_bytes]
    cases hin : s.inBounds a n with
    | true =>
      rw [State.debugWrite_in hin, State.timedWrite_in hin]
      exact ⟨_, rfl, rfl⟩
    | false =>
      rw [State.debugWrite_out hin, State.timedWrite_out hin]
      exact ⟨_, rfl, rfl⟩
  · simp [HostMove.apply, Len.ofNat?_other hlen]
  · have hnot : ¬ index < 32 := by omega
    simp [HostMove.apply, hnot]

/-! ### What an instruction does to the fields beside registers, pc and memory -/

section Exec
variable {i : Instr} {s t : State}

theorem exec_cfg (h : exec i s = .next t) : t.cfg = s.cfg := by
  obtain ⟨rd, v, p, rfl⟩ | ⟨rd, v, rfl⟩ | ⟨n, ea, v, -, rfl⟩ | ⟨n, ea, dir, -, rfl⟩ := exec_cases h <;> rfl

theorem exec_grant (h : exec i s = .next t) : t.grant = s.grant := by
  obtain ⟨rd, v, p, rfl⟩ | ⟨rd, v, rfl⟩ | ⟨n, ea, v, -, rfl⟩ | ⟨n, ea, dir, -, rfl⟩ := exec_cases h <;> rfl

/-- An instruction keeps the fault record or records an access fault. -/
theorem exec_faultInfo (h : exec i s = .next t) :
    t.faultInfo = s.faultInfo ∨ ∃ ea n dir, t.faultInfo = some (.accessFault s.pc ea n dir) := by
  obtain ⟨rd, v, p, rfl⟩ | ⟨rd, v, rfl⟩ | ⟨n, ea, v, -, rfl⟩ | ⟨n, ea, dir, -, rfl⟩ := exec_cases h
  · exact .inl rfl
  · exact .inl rfl
  · exact .inl rfl
  · exact .inr ⟨ea, n, dir, rfl⟩

/-- A load or store whose bytes do not all lie in memory takes its AccessFault (60_exceptions.md R242). -/
theorem exec_out_of_bounds {d : DataAccess} (hd : dataAccess i = some d)
    (hout : s.inBounds (s.effectiveAddress d.base d.disp) d.len = false) :
    exec i s = .next (s.chargeAccess.takeFault
      (.accessFault s.pc (s.effectiveAddress d.base d.disp) d.len d.dir)) := by
  cases i <;> cases hd
  case lb | lh | lw | lbu | lhu => exact State.load_out hout _ _
  case sb | sh | sw => exact State.store_out hout _

theorem State.load_simTime {n : Len} {ext : Word → Word} {rd : Reg} {ea : Word} (h : s.load n ext rd ea = .next t) :
    t.simTime = s.simTime + s.cfg.accessLatency := by
  obtain ⟨-, rfl⟩ | ⟨-, rfl⟩ := State.load_next h <;> rfl

theorem State.store_simTime {n : Len} {ea v : Word} (h : s.store n ea v = .next t) :
    t.simTime = s.simTime + s.cfg.accessLatency := by
  obtain ⟨-, rfl⟩ | ⟨-, rfl⟩ := State.store_next h <;> rfl

theorem State.branch_simTime {c : Bool} {offset : Word} (h : s.branch c offset = .next t) :
    t.simTime = s.simTime := by
  rw [State.branch_eq] at h
  cases h
  rfl

/-- An instruction adds to sim_time the latency of its data access, if it makes one (R91, decision D24). -/
theorem exec_simTime (h : exec i s = .next t) :
    t.simTime = s.simTime + if (dataAccess i).isSome then s.cfg.accessLatency else 0 := by
  cases i with
  | lb | lh | lw | lbu | lhu => exact State.load_simTime h
  | sb | sh | sw => exact State.store_simTime h
  | beq | bne | blt | bge | bltu | bgeu => exact State.branch_simTime h
  | lui | auipc | jal | jalr => cases h; rfl
  | addi | slti | sltiu | xori | ori | andi | slli | srli | srai => cases h; rfl
  | add | sub | sll | slt | sltu | xor | srl | sra | or | and => cases h; rfl

end Exec

/-- Settles O20: out of bounds every mode answers its error and keeps the memory, and an instruction's access is
`exec_out_of_bounds`. -/
theorem failingAccessLeavesTheStore : Obligations.FailingAccessLeavesTheStore := by
  intro s a n v hlt
  have hout : s.inBounds a n = false := State.inBounds_eq_false_iff.2 hlt
  refine ⟨⟨_, State.timedRead_out hout, rfl⟩, ⟨_, State.timedWrite_out hout v, rfl⟩, State.debugRead_out hout,
    State.debugWrite_out hout v, ?_, ?_⟩
  · rintro rfl rfl
    exact ⟨State.fetch_snd_out hlt, s.fetch_fst_mem⟩
  · rintro i d hd rfl rfl
    exact ⟨_, exec_out_of_bounds hd hout, rfl, rfl, fun _ => rfl⟩

/-! ### The grant and the store (R81, R83, R89) -/

/-- Settles O24: a read through a valid grant is a timed read, before an instruction and after it, and no instruction
changes MEM_SIZE. -/
theorem grantReadsTheBackingStore : Obligations.GrantReadsTheBackingStore := by
  intro s g a hcovers
  have hvalid := Grant.valid_of_covers hcovers
  refine ⟨State.grantRead_of_valid hvalid s a, fun i t hexec => ?_⟩
  rw [State.grantRead_of_valid hvalid, State.timedRead_snd, exec_cfg hexec]
  rfl

theorem step_keeps_valid_grant {s t : State} {g : Grant} (hg : s.grant = some g) (hvalid : g.valid = true)
    (hstep : step s = .next t) : t.grant = some g := by
  have hfetch := State.fetch_fst_grant_of_valid hg hvalid
  obtain ⟨-, rfl⟩ | ⟨-, -, rfl⟩ | ⟨-, -, f, -, rfl⟩ | ⟨-, -, inst, why, -, -, rfl⟩ |
    ⟨-, -, inst, i, u, -, -, hexec, hend⟩ := step_cases hstep
  · exact hg
  · exact hg
  · exact hfetch
  · exact hfetch
  · have hu : u.grant = some g := (exec_grant hexec).trans hfetch
    obtain ⟨-, rfl⟩ | ⟨-, rfl⟩ := hend <;> exact hu

/-- An invalidated grant is not used (R82). -/
theorem State.usableGrant_invalidateGrant (s : State) (a : Word) : s.invalidateGrant.usableGrant a = none := by
  unfold State.usableGrant State.invalidateGrant
  cases s.grant with
  | none => rfl
  | some g => simp [Grant.covers]

/-- Settles O25: a step keeps a valid grant, and the host's move only clears the flag. -/
theorem onlyTheHostInvalidatesAGrant : Obligations.OnlyTheHostInvalidatesAGrant :=
  ⟨fun _ _ _ hg hvalid hstep => step_keeps_valid_grant hg hvalid hstep,
    fun s => ⟨s.invalidateGrant, rfl, rfl, s.usableGrant_invalidateGrant⟩⟩

theorem faultOfUnrecognized_ne_invalidatedAccess (pc inst pc' : Word) :
    faultOfUnrecognized pc inst ≠ .invalidatedAccess pc' := by
  unfold faultOfUnrecognized
  split <;> exact Fault.noConfusion

/-- Settles O26: the faults of a step are the fetch's AccessFault, the decoder's two and a data access's AccessFault;
every other step keeps the record. -/
theorem noStepRaisesInvalidatedAccess : Obligations.NoStepRaisesInvalidatedAccess := by
  intro s t pc hstep hrecord
  obtain ⟨-, rfl⟩ | ⟨-, -, rfl⟩ | ⟨-, -, f, hfetch, rfl⟩ | ⟨-, -, inst, why, -, -, rfl⟩ |
    ⟨-, -, inst, i, u, -, -, hexec, hend⟩ := step_cases hstep
  · exact hrecord
  · exact hrecord
  · obtain ⟨-, rfl⟩ := State.fetch_error hfetch
    cases hrecord
  · exact absurd (Option.some.inj hrecord) (faultOfUnrecognized_ne_invalidatedAccess s.pc inst pc)
  · have hu : u.faultInfo = some (.invalidatedAccess pc) := by
      obtain ⟨-, rfl⟩ | ⟨-, rfl⟩ := hend <;> exact hrecord
    obtain hkept | ⟨ea, n, dir, hfault⟩ := exec_faultInfo hexec
    · rw [← s.fetch_fst_faultInfo, ← hkept, hu]
    · cases hfault.symm.trans hu

/-- Settles O37: the fetch reads the memory the store wrote, at the address it wrote. -/
theorem storeIsSeenByTheNextFetch : Obligations.StoreIsSeenByTheNextFetch := by
  intro s t rs1 rs2 imm hin hexec u hmem hcfg hpc
  have hbounds := (s.inBounds_iff (s.effectiveAddress rs1 imm) .four).2 hin
  have ht : exec (.sw rs1 rs2 imm) s = _ := State.store_in hbounds (s.readReg rs2)
  obtain rfl := Host.Outcome.next.inj (hexec.symm.trans ht)
  have hfetch : u.pc.toNat + 4 ≤ u.cfg.memSize := by rw [hpc, hcfg]; exact hin
  rw [State.fetch_snd_in hfetch, hmem, hpc]
  exact congrArg _ (Memory.read_write_four _ _ _)

/-! ### The fetch of a step (R84, R91) -/

/-- Settles O45: the word placed is the word read at pc. -/
theorem placedWordIsFetchedNext : Obligations.PlacedWordIsFetchedNext := by
  intro s w hready hin
  refine ⟨hready, hin, (Memory.read_write_four _ _ _).trans ?_⟩
  rw [Nat.mod_eq_of_lt w.isLt, BitVec.ofNat_toNat, BitVec.setWidth_eq]

theorem step_of_ready {s : State} (h : s.Ready) : step s = s.cycle := by
  obtain ⟨hrun, hstop⟩ := h
  simp [step, State.loop, hrun, hstop]

/-- A ready step whose fetch faults takes that fault. -/
theorem step_of_fetch_error {s : State} {f : Fault} (hready : s.Ready) (hfetch : s.fetch.2 = .error f) :
    step s = .next (s.fetch.1.takeFault f) := by
  have hpair : s.fetch = (s.fetch.1, .error f) := Prod.ext rfl hfetch
  rw [step_of_ready hready, State.cycle, hpair]

/-- Settles O46: the fetch answers its AccessFault and the step takes it. -/
theorem fetchOutOfBoundsFaults : Obligations.FetchOutOfBoundsFaults :=
  fun s hready hout => ⟨_, step_of_fetch_error hready (State.fetch_snd_out hout), s.takeFault_fetch_faultsWith _⟩

/-- Settles O53: the fetch, the data access and the end of the cycle each add their own amount, and a phase that
faults ends the sum. -/
theorem simTimeOfACycle : Obligations.SimTimeOfACycle := by
  rintro s t ⟨hrun, hstop⟩ hstep
  obtain ⟨hnot, -⟩ | ⟨-, hhalt, -⟩ | ⟨-, -, f, hfetch, rfl⟩ | ⟨-, -, inst, why, hfetch, hdecode, rfl⟩ |
    ⟨-, -, inst, i, u, hfetch, hdecode, hexec, hend⟩ := step_cases hstep
  · exact absurd hrun hnot
  · exact absurd (hstop.symm.trans hhalt) Bool.false_ne_true
  · obtain ⟨hout, -⟩ := State.fetch_error hfetch
    simp [hout]
  · obtain ⟨hin, rfl⟩ := State.fetch_ok hfetch
    simp [not_lt.2 hin, hdecode]
  · obtain ⟨hin, rfl⟩ := State.fetch_ok hfetch
    have htime := exec_simTime hexec
    have hcfg := exec_cfg hexec
    rw [State.fetch_fst_simTime, State.fetch_fst_cfg] at htime
    rw [State.fetch_fst_cfg] at hcfg
    rw [if_neg (not_lt.2 hin), hdecode]
    obtain ⟨hu, rfl⟩ | ⟨hu, rfl⟩ := hend
    · rw [State.completeCycle_simTime, State.completeCycle_loopState, if_pos hu, htime, hcfg]
    · rw [if_neg hu, htime, Nat.add_zero]

/-! ### The loader feed and the host's moves (R74, R77, R81) -/

/-- A byte after a sequence of records: each record that covers it gives it anew. -/
theorem Memory.byte_foldl_writeBytes (records : List Record) (m : Memory) (a : Nat) :
    Memory.byte (records.foldl (fun m r => Memory.writeBytes m r.addr r.bytes) m) a =
      records.foldl (fun b r => if r.addr ≤ a then r.bytes.getD (a - r.addr) b else b) (m.byte a) :=
  (List.foldl_hom (Memory.byte · a) fun m r => (m.byte_writeBytes r.addr r.bytes a).symm).symm

/-- Settles O2: a feed is answered when every record fits, and its memory is the fold of the records. -/
theorem loaderAppliesRecordsInOrder : Obligations.LoaderAppliesRecordsInOrder := by
  intro cfg prior records
  refine ⟨State.loadImage_answers records _, fun t hlaunch a => ?_⟩
  obtain ⟨-, -, hmem⟩ := State.loadImage_next hlaunch
  rw [hmem, Memory.byte_foldl_writeBytes, State.resetWith_mem]

/-- The latch is not part of the invariant. -/
theorem State.Inv.requestStop {s : State} (h : s.Inv) : s.requestStop.Inv := by
  unfold State.requestStop
  split <;> exact h

/-- Clearing the flag keeps the window. -/
theorem State.Inv.invalidateGrant {s : State} (h : s.Inv) : s.invalidateGrant.Inv := by
  obtain ⟨hcfg, hwf, hlt, hgrant, hfault⟩ := h
  refine ⟨hcfg, hwf, hlt, fun g hg => ?_, hfault⟩
  obtain ⟨held, hheld, rfl⟩ := Option.mem_map.1 hg
  exact hgrant held hheld

/-- Settles O5: each case of `HostMove.apply_cases` is an update that keeps the invariant. -/
theorem hostMovesKeepTheInvariant : Obligations.HostMovesKeepTheInvariant := by
  intro m s t a h happly
  obtain rfl | rfl | ⟨ea, n, v, hin, rfl⟩ | ⟨r, v, rfl⟩ | ⟨p, rfl⟩ | rfl := HostMove.apply_cases happly
  · exact h
  · exact h.requestStop
  · exact h.write hin v
  · exact h.writeReg r v
  · exact h.redirect p
  · exact h.invalidateGrant

end Sys2Proof.Machine
end

section
/-! PROOFS, 30_encoding.md. The decoder and the encoder undo each other, the opcode table says what the decoder says,
and where every field and every immediate takes its bits from. -/

namespace Sys2Proof

/-! ### Decode after encode (R103, R127, R130) -/

/-- The word of an instruction holds the keys of its tag, format by format. -/
theorem tagOf_encode (i : Instr) : tagOf (encode i) = i.tag := by
  unfold tagOf encode
  cases i with
  | lui | auipc => rw [opcodeOf_encodeU]; rfl
  | jal => rw [opcodeOf_encodeJ]; rfl
  | jalr | lb | lh | lw | lbu | lhu | addi | slti | sltiu | xori | ori | andi =>
    rw [opcodeOf_encodeI, funct3Of_encodeI]; rfl
  | beq | bne | blt | bge | bltu | bgeu => rw [opcodeOf_encodeB, funct3Of_encodeB]; rfl
  | sb | sh | sw => rw [opcodeOf_encodeS, funct3Of_encodeS]; rfl
  | slli | srli | srai | add | sub | sll | slt | sltu | xor | srl | sra | or | and =>
    rw [opcodeOf_encodeR, funct3Of_encodeR, inst30Of_encodeR]; rfl

/-- The tag comes back by `tagOf_encode`, each operand by its format's lemma. An offset comes back because it is even. -/
theorem decode_encode {i : Instr} (hwf : i.wf = true) : decode (encode i) = .instr i := by
  unfold decode
  rw [tagOf_encode]
  cases i with
  | beq _ _ offset | bne _ _ offset | blt _ _ offset | bge _ _ offset | bltu _ _ offset | bgeu _ _ offset =>
    have heven : offset.getLsbD 0 = false := Bool.not_eq_true' _ ▸ hwf
    simp [Instr.tag, encode, fieldB_encodeB (h := heven)]
  | jal _ offset =>
    have heven : offset.getLsbD 0 = false := Bool.not_eq_true' _ ▸ hwf
    simp [Instr.tag, encode, fieldJ_encodeJ (h := heven)]
  | _ => simp [Instr.tag, encode]

/-- Settles O6: from the word by `decode_encode`, and the bytes of a word decode as the word. -/
theorem decodeOfEncodeIsTheInstruction : Obligations.DecodeOfEncodeIsTheInstruction := by
  intro i hwf
  refine ⟨decode_encode hwf, fun rest => ?_⟩
  rw [encodeBytes, decodeBytes_bytesOfWord, decode_encode hwf]

/-! ### The opcode table (R113, R126, R131) -/

/-- The row of a tag. -/
def rowOf (t : Tag) : Option TableRow := opcodeTable.find? fun row => row.tag == t

/-- Each row is found by its tag, so no tag has two rows. -/
theorem rowOf_tag : ∀ row ∈ opcodeTable, rowOf row.tag = some row := by decide

/-- The mask tests one of three sets of keys, and the match holds no bit outside them. -/
theorem mask_cases : ∀ row ∈ opcodeTable,
    (row.mask = 0x0000007F#32 ∧ row.pattern = encodeR 0#7 0#5 0#5 0#3 0#5 (opcodeOf row.pattern)) ∨
      (row.mask = 0x0000707F#32 ∧
        row.pattern = encodeR 0#7 0#5 0#5 (funct3Of row.pattern) 0#5 (opcodeOf row.pattern)) ∨
      (row.mask = 0x4000707F#32 ∧ row.pattern =
        encodeR (funct7Of row.pattern &&& 0b0100000#7) 0#5 0#5 (funct3Of row.pattern) 0#5 (opcodeOf row.pattern)) := by
  decide

/-- A row selects a word by the keys its mask tests. -/
theorem selects_iff {row : TableRow} (hrow : row ∈ opcodeTable) (w : Word) :
    row.selects w = true ↔ opcodeOf w = opcodeOf row.pattern ∧
      (funct3Of row.mask = 0#3 ∨ funct3Of w = funct3Of row.pattern) ∧
      (inst30Of row.mask = false ∨ inst30Of w = inst30Of row.pattern) := by
  unfold TableRow.selects
  rw [beq_iff_eq]
  obtain ⟨hmask, hpattern⟩ | ⟨hmask, hpattern⟩ | ⟨hmask, hpattern⟩ := mask_cases row hrow <;> rw [hmask]
  · simp [masked_op w _ hpattern, funct3Of, inst30Of]
  · simp [masked_f3 w _ hpattern, funct3Of, inst30Of]
  · simp [masked_b30 w _ hpattern, funct3Of, inst30Of]

/-- The keys a row tests fix the tag. -/
theorem tagOfKeys_of_row : ∀ row ∈ opcodeTable, ∀ f3 b, (funct3Of row.mask = 0#3 ∨ f3 = funct3Of row.pattern) →
    (inst30Of row.mask = false ∨ b = inst30Of row.pattern) → tagOfKeys (opcodeOf row.pattern) f3 b = row.tag := by
  decide +kernel

theorem tagOf_of_selects {row : TableRow} (hrow : row ∈ opcodeTable) {w : Word} (h : row.selects w = true) :
    tagOf w = row.tag := by
  obtain ⟨hop, h3, h30⟩ := (selects_iff hrow w).1 h
  rw [tagOf, hop, tagOfKeys_of_row row hrow _ _ h3 h30]

theorem row_tag_recognized : ∀ row ∈ opcodeTable, row.tag ≠ .unrecognized := by decide

theorem decode_of_selects {row : TableRow} (hrow : row ∈ opcodeTable) {w : Word} (h : row.selects w = true) :
    ∃ i, decode w = .instr i ∧ i.tag = row.tag ∧ i.wf = true := by
  have htag := tagOf_of_selects hrow h
  rw [← htag]
  exact decode_of_tag (htag ▸ row_tag_recognized row hrow)

theorem exists_row_selects {w : Word} (h : tagOf w ≠ .unrecognized) :
    ∃ row ∈ opcodeTable, row.selects w = true ∧ row.tag = tagOf w := by
  obtain ⟨row, hrow, htag, hop, hmask⟩ := row_of_keys _ _ _ h
  refine ⟨row, hrow, (selects_iff hrow w).2 ⟨hop.symm, ?_⟩, htag⟩
  obtain hmask | ⟨hmask, h3⟩ | ⟨-, h3, h30⟩ := hmask
  · rw [hmask]; exact ⟨.inl (by decide), .inl (by decide)⟩
  · rw [hmask]; exact ⟨.inr h3.symm, .inl (by decide)⟩
  · exact ⟨.inr h3.symm, .inr h30.symm⟩

/-- Settles O8: a row selects a word by the keys of its tag, every tag has a row, and no two rows share a tag. -/
theorem opcodeTableIsTheDecoder : Obligations.OpcodeTableIsTheDecoder := by
  refine ⟨fun row hrow w => decode_of_selects hrow, fun w i hi => ?_, fun row hrow row' hrow' w h h' => ?_⟩
  · obtain ⟨htag, -, hrecognized⟩ := tag_of_decode hi
    rw [htag]
    exact exists_row_selects hrecognized
  · have htag : row.tag = row'.tag := (tagOf_of_selects hrow h).symm.trans (tagOf_of_selects hrow' h')
    exact Option.some.inj ((rowOf_tag row hrow).symm.trans (htag ▸ rowOf_tag row' hrow'))

/-! ### Encode after decode (R127) -/

/-- The canonical mask and match refine the row's own. -/
theorem canonical_refines : ∀ row ∈ opcodeTable,
    row.canonicalMask &&& row.mask = row.mask ∧ row.canonicalPattern &&& row.mask = row.pattern := by decide

theorem selects_of_canonical {row : TableRow} (hrow : row ∈ opcodeTable) {w : Word} (h : row.canonical w = true) :
    row.selects w = true := by
  obtain ⟨hmask, hpattern⟩ := canonical_refines row hrow
  have hw : w &&& row.canonicalMask = row.canonicalPattern := beq_iff_eq.1 h
  refine beq_iff_eq.2 ?_
  rw [← hpattern, ← hw, BitVec.and_assoc, hmask]

/-- The operands of `i` are the word's fields, and the canonical match fixes every other bit of its format. -/
theorem encode_of_canonical {row : TableRow} (hrow : row ∈ opcodeTable) {w : Word} {i : Instr}
    (hcanonical : row.canonical w = true) (hi : decode w = .instr i) (hrowTag : i.tag = row.tag) : encode i = w := by
  have hw : w &&& row.canonicalMask = row.canonicalPattern := beq_iff_eq.1 hcanonical
  have hfound : rowOf i.tag = some row := hrowTag ▸ rowOf_tag row hrow
  obtain ⟨htag, -, -⟩ := tag_of_decode hi
  rw [decode, ← htag] at hi
  cases i with
  | lui | auipc =>
    cases hi; cases hfound
    have hop := (masked_op w _ rfl).1 hw
    exact .trans (by rw [hop]; rfl) (encodeU_fields w)
  | jal =>
    cases hi; cases hfound
    have hop := (masked_op w _ rfl).1 hw
    exact .trans (by rw [hop]; rfl) (encodeJ_fields w)
  | jalr | lb | lh | lw | lbu | lhu | addi | slti | sltiu | xori | ori | andi =>
    cases hi; cases hfound
    obtain ⟨hop, h3⟩ := (masked_f3 w _ rfl).1 hw
    exact .trans (by rw [hop, h3]; rfl) (encodeI_fields w)
  | beq | bne | blt | bge | bltu | bgeu =>
    cases hi; cases hfound
    obtain ⟨hop, h3⟩ := (masked_f3 w _ rfl).1 hw
    exact .trans (by rw [hop, h3]; rfl) (encodeB_fields w)
  | sb | sh | sw =>
    cases hi; cases hfound
    obtain ⟨hop, h3⟩ := (masked_f3 w _ rfl).1 hw
    exact .trans (by rw [hop, h3]; rfl) (encodeS_fields w)
  | slli | srli | srai | add | sub | sll | slt | sltu | xor | srl | sra | or | and =>
    cases hi; cases hfound
    obtain ⟨hop, h3, h7⟩ := (masked_f7 w _ rfl).1 hw
    exact .trans (by rw [hop, h3, h7]; rfl) (encodeR_fields w)

/-- Settles O7: a canonical word is one its row selects, and the encoder puts the row's keys around its fields. -/
theorem encodeOfDecodeIsTheCanonicalWord : Obligations.EncodeOfDecodeIsTheCanonicalWord := by
  intro row hrow w hcanonical
  obtain ⟨i, hi, htag, hwf⟩ := decode_of_selects hrow (selects_of_canonical hrow hcanonical)
  exact ⟨i, hi, htag, hwf, encode_of_canonical hrow hcanonical hi htag⟩

/-! ### The unrecognized words (R121, R122) -/

theorem branchTag_eq_unrecognized_iff : ∀ f3, branchTag f3 = .unrecognized ↔ f3 = 0b010#3 ∨ f3 = 0b011#3 := by decide

theorem loadTag_eq_unrecognized_iff :
    ∀ f3, loadTag f3 = .unrecognized ↔ f3 = 0b011#3 ∨ f3 = 0b110#3 ∨ f3 = 0b111#3 := by decide

theorem storeTag_eq_unrecognized_iff : ∀ f3, storeTag f3 = .unrecognized ↔ 3 ≤ f3.toNat := by decide

theorem aluImmTag_ne_unrecognized : ∀ f3 b30, aluImmTag f3 b30 ≠ .unrecognized := by decide

theorem aluRegTag_ne_unrecognized : ∀ f3 b30, aluRegTag f3 b30 ≠ .unrecognized := by decide

/-- The three families with gaps in funct3, and the opcodes outside the dispatch table. -/
theorem tagOfKeys_eq_unrecognized_iff (op : BitVec 7) (f3 : BitVec 3) (b30 : Bool) :
    tagOfKeys op f3 b30 = .unrecognized ↔
      op ∉ [0x37#7, 0x17#7, 0x6F#7, 0x67#7, 0x63#7, 0x03#7, 0x23#7, 0x13#7, 0x33#7] ∨
        (op = 0x63#7 ∧ (f3 = 0b010#3 ∨ f3 = 0b011#3)) ∨
        (op = 0x03#7 ∧ (f3 = 0b011#3 ∨ f3 = 0b110#3 ∨ f3 = 0b111#3)) ∨ (op = 0x23#7 ∧ 3 ≤ f3.toNat) := by
  by_cases hop : op ∈ [0x37#7, 0x17#7, 0x6F#7, 0x67#7, 0x63#7, 0x03#7, 0x23#7, 0x13#7, 0x33#7]
  · simp only [List.mem_cons, List.not_mem_nil, or_false] at hop
    obtain rfl | rfl | rfl | rfl | rfl | rfl | rfl | rfl | rfl := hop <;>
      simp [tagOfKeys, branchTag_eq_unrecognized_iff, loadTag_eq_unrecognized_iff, storeTag_eq_unrecognized_iff,
        aluImmTag_ne_unrecognized, aluRegTag_ne_unrecognized]
  · refine iff_of_true ?_ (.inl hop)
    simp only [List.mem_cons, List.not_mem_nil, or_false, not_or] at hop
    simp [tagOfKeys, hop]

theorem decode_unrecognized_iff (w : Word) : (∃ why, decode w = .unrecognized why) ↔ tagOf w = .unrecognized := by
  refine ⟨fun ⟨why, hwhy⟩ => ?_, fun h => ⟨_, decode_of_unrecognized h⟩⟩
  by_contra hne
  obtain ⟨i, hi, -⟩ := decode_of_tag hne
  cases hi.symm.trans hwhy

/-- Settles O9: the sentinel is answered when the tag is, and the tag is a function of the keys. -/
theorem unrecognizedWordsAreTheFourCases : Obligations.UnrecognizedWordsAreTheFourCases :=
  fun w => (decode_unrecognized_iff w).trans (tagOfKeys_eq_unrecognized_iff _ _ _)

/-! ### The bits the decoder ignores (R120) -/

/-- The operations whose operands are rd, rs1 and the field rs2 (a register, or the shift amount of R112). -/
def threeRegisterTags : List Tag :=
  [.slli, .srli, .srai, .add, .sub, .sll, .slt, .sltu, .xor, .srl, .sra, .or, .and]

theorem aluRegTag_mem : ∀ f3 b30, aluRegTag f3 b30 ∈ threeRegisterTags := by decide

theorem aluImmTag_mem : ∀ f3 b30, f3 = 0b001#3 ∨ f3 = 0b101#3 → aluImmTag f3 b30 ∈ threeRegisterTags := by decide

/-- inst[30] matters for funct3 000 and 101 only (R119). -/
theorem aluRegTag_congr : ∀ f3 b b', (f3 = 0b000#3 ∨ f3 = 0b101#3 → b = b') → aluRegTag f3 b = aluRegTag f3 b' := by
  decide

/-- inst[30] does not matter for SLLI (R118). -/
theorem aluImmTag_congr : ∀ f3 b b', f3 = 0b001#3 ∨ (f3 = 0b101#3 ∧ b = b') → aluImmTag f3 b = aluImmTag f3 b' := by
  decide

/-- The answer to a word of these operations is its tag with three operands. -/
theorem decode_encodeR_congr {f7 f7' : BitVec 7} {rs2 rs1 rd : Reg} {f3 : BitVec 3} {op : BitVec 7}
    (hmem : tagOfKeys op f3 (f7.getLsbD 5) ∈ threeRegisterTags)
    (htag : tagOfKeys op f3 (f7.getLsbD 5) = tagOfKeys op f3 (f7'.getLsbD 5)) :
    decode (encodeR f7 rs2 rs1 f3 rd op) = decode (encodeR f7' rs2 rs1 f3 rd op) := by
  unfold decode tagOf
  simp only [opcodeOf_encodeR, funct3Of_encodeR, inst30Of_encodeR, rdOf_encodeR, rs1Of_encodeR, rs2Of_encodeR]
  rw [← htag]
  generalize tagOfKeys op f3 (f7.getLsbD 5) = t at hmem
  simp only [threeRegisterTags, List.mem_cons, List.not_mem_nil, or_false] at hmem
  obtain rfl | rfl | rfl | rfl | rfl | rfl | rfl | rfl | rfl | rfl | rfl | rfl | rfl := hmem <;> rfl

/-- JALR's tag is fixed by the opcode alone (R114). -/
theorem decode_jalr_word (imm : BitVec 12) (rs1 rd : Reg) (f3 : BitVec 3) :
    decode (encodeI imm rs1 f3 rd 0x67#7) = .instr (.jalr rd rs1 imm) := by
  have htag : tagOf (encodeI imm rs1 f3 rd 0x67#7) = .jalr := by rw [tagOf, opcodeOf_encodeI]; rfl
  simp [decode, htag]

/-- Settles O10: the bits in question reach neither the tag nor an operand. -/
theorem ignoredBitsChangeNothing : Obligations.IgnoredBitsChangeNothing := by
  refine ⟨fun f7 f7' rs2 rs1 rd f3 h => ?_, fun f7 f7' shamt rs1 rd f3 h => ?_, fun imm rs1 rd f3 f3' => ?_⟩
  · exact decode_encodeR_congr (aluRegTag_mem _ _) (aluRegTag_congr _ _ _ h)
  · exact decode_encodeR_congr (aluImmTag_mem _ _ (h.imp_right And.left)) (aluImmTag_congr _ _ _ h)
  · rw [decode_jalr_word, decode_jalr_word]

/-! ### Fields (R101) -/

/-- Settles O12: each accessor is a slice of the word. -/
theorem fieldsAreTheWordsBits : Obligations.FieldsAreTheWordsBits := by
  intro w k
  have hop : (opcodeOf w).getLsbD k = (decide (k < 7) && w.getLsbD k) := by
    rw [opcodeOf, BitVec.getLsbD_extractLsb', Nat.zero_add]
  exact ⟨hop, BitVec.getLsbD_extractLsb' .., BitVec.getLsbD_extractLsb' .., BitVec.getLsbD_extractLsb' ..,
    BitVec.getLsbD_extractLsb' .., BitVec.getLsbD_extractLsb' .., inst30Of_eq w⟩

/-! ### Immediates (R105 to R110) -/

/-- A bit of a sign extension is the field's own bit, or its top bit above the field. -/
theorem getLsbD_signExtend_min {n : Nat} (hn : 0 < n) (x : BitVec n) {k : Nat} (hk : k < 32) :
    (x.signExtend 32).getLsbD k = x.getLsbD (min k (n - 1)) := by
  rw [BitVec.getLsbD_signExtend, decide_eq_true hk, Bool.true_and, BitVec.msb_eq_getLsbD_last]
  split
  · rw [min_eq_left (by omega)]
  · rw [min_eq_right (by omega)]

/-! Where the bits of each field come from, then the bits above the field. -/

theorem getLsbD_fieldI (w : Word) {j : Nat} (hj : j < 12) : (fieldI w).getLsbD j = w.getLsbD (j + 20) := by
  rw [fieldI, BitVec.getLsbD_extractLsb', decide_eq_true hj, Bool.true_and, Nat.add_comm]

theorem getLsbD_fieldS (w : Word) {j : Nat} (hj : j < 12) :
    (fieldS w).getLsbD j = if j < 5 then w.getLsbD (j + 7) else w.getLsbD (j + 20) := by
  simp only [fieldS, BitVec.getLsbD_append, BitVec.getLsbD_extractLsb']
  grind

theorem getLsbD_fieldB (w : Word) {j : Nat} (hj : j < 13) :
    (fieldB w).getLsbD j = if j = 0 then false else if j < 5 then w.getLsbD (j + 7)
      else if j < 11 then w.getLsbD (j + 20) else if j = 11 then w.getLsbD 7 else w.getLsbD 31 := by
  simp only [fieldB, BitVec.getLsbD_append, BitVec.getLsbD_extractLsb']
  grind

theorem getLsbD_fieldJ (w : Word) {j : Nat} (hj : j < 21) :
    (fieldJ w).getLsbD j = if j = 0 then false else if j < 11 then w.getLsbD (j + 20)
      else if j = 11 then w.getLsbD 20 else if j < 20 then w.getLsbD j else w.getLsbD 31 := by
  simp only [fieldJ, BitVec.getLsbD_append, BitVec.getLsbD_extractLsb']
  grind

theorem getLsbD_immI (w : Word) {k : Nat} (hk : k < 32) :
    (immI w).getLsbD k = if k < 11 then w.getLsbD (k + 20) else w.getLsbD 31 := by
  rw [immI, value12, getLsbD_signExtend_min (by decide) _ hk, getLsbD_fieldI w (by omega)]
  grind

theorem getLsbD_immS (w : Word) {k : Nat} (hk : k < 32) :
    (immS w).getLsbD k =
      if k < 5 then w.getLsbD (k + 7) else if k < 11 then w.getLsbD (k + 20) else w.getLsbD 31 := by
  rw [immS, value12, getLsbD_signExtend_min (by decide) _ hk, getLsbD_fieldS w (by omega)]
  grind

theorem getLsbD_immB (w : Word) {k : Nat} (hk : k < 32) :
    (immB w).getLsbD k = if k = 0 then false else if k < 5 then w.getLsbD (k + 7)
      else if k < 11 then w.getLsbD (k + 20) else if k = 11 then w.getLsbD 7 else w.getLsbD 31 := by
  rw [immB, value13, getLsbD_signExtend_min (by decide) _ hk, getLsbD_fieldB w (by omega)]
  grind

theorem getLsbD_immJ (w : Word) {k : Nat} (hk : k < 32) :
    (immJ w).getLsbD k = if k = 0 then false else if k < 11 then w.getLsbD (k + 20)
      else if k = 11 then w.getLsbD 20 else if k < 20 then w.getLsbD k else w.getLsbD 31 := by
  rw [immJ, value21, getLsbD_signExtend_min (by decide) _ hk, getLsbD_fieldJ w (by omega)]
  grind

theorem getLsbD_immU (w : Word) (k : Nat) : (immU w).getLsbD k = if k < 12 then false else w.getLsbD k := by
  simp only [immU, valueU, fieldU, BitVec.getLsbD_append, BitVec.getLsbD_extractLsb']
  grind

/-- imm_U is the word with its low 12 bits cleared (R107). -/
theorem immU_eq_and (w : Word) : immU w = w &&& 0xFFFFF000#32 := by
  have hmask : 0xFFFFF000#32 = BitVec.allOnes 20 ++ 0#12 := rfl
  have hword : w = fieldU w ++ w.extractLsb' 0 12 := ((extract_join w 0 12 20).trans (extract_all w)).symm
  conv_rhs => rw [hmask, hword, BitVec.and_append, BitVec.and_allOnes, BitVec.and_zero]
  rfl

/-- A sign extension is the number its field is, so it keeps the field's range. -/
theorem toInt_signExtend_range {n : Nat} (hn : n ≤ 32) (x : BitVec n) :
    -2 ^ (n - 1) ≤ (x.signExtend 32).toInt ∧ (x.signExtend 32).toInt < 2 ^ (n - 1) := by
  rw [BitVec.toInt_signExtend_of_le hn]
  exact ⟨x.le_toInt, x.toInt_lt⟩

/-- A word whose bit 0 is 0 is an even number. -/
theorem toInt_even {x : Word} (h : x.getLsbD 0 = false) : x.toInt % 2 = 0 := by
  have hnat : x.toNat % 2 = 0 := by simpa [BitVec.getLsbD, Nat.testBit_zero] using h
  rw [BitVec.toInt_eq_toNat_cond]
  split <;> omega

/-- Settles O13: the bits are those of the slices put together and sign-extended, the ranges those of a signed field,
and the offsets are even. -/
theorem immediatesPlaceTheirBits : Obligations.ImmediatesPlaceTheirBits := by
  intro w
  have hI : -2048 ≤ (immI w).toInt ∧ (immI w).toInt < 2048 := toInt_signExtend_range (by decide) (fieldI w)
  have hS : -2048 ≤ (immS w).toInt ∧ (immS w).toInt < 2048 := toInt_signExtend_range (by decide) (fieldS w)
  have hB : -4096 ≤ (immB w).toInt ∧ (immB w).toInt < 4096 := toInt_signExtend_range (by decide) (fieldB w)
  have hJ : -1048576 ≤ (immJ w).toInt ∧ (immJ w).toInt < 1048576 := toInt_signExtend_range (by decide) (fieldJ w)
  have hBeven : (immB w).toInt % 2 = 0 := toInt_even (getLsbD_immB w (by decide))
  have hJeven : (immJ w).toInt % 2 = 0 := toInt_even (getLsbD_immJ w (by decide))
  refine ⟨fun _ => getLsbD_immI w, fun _ => getLsbD_immS w, fun k _ => getLsbD_immU w k, fun _ => getLsbD_immB w,
    fun _ => getLsbD_immJ w, ?_, ?_, immU_eq_and w, ?_, ?_⟩ <;> omega

end Sys2Proof
end

section
/-! PROOFS, 40_upper_immediate.md. LUI and AUIPC: which words they are, and what they write. -/

namespace Sys2Proof.Machine

/-! ### Words (R114, R140) -/

/-- Settles O11, by running the decoder on each of the eleven words. -/
theorem specWordsDecode : Obligations.SpecWordsDecode := by
  unfold Obligations.SpecWordsDecode
  decide

/-- The opcode alone makes a word LUI (R114). -/
theorem decode_of_opcode_lui {w : Word} (h : opcodeOf w = 0b0110111#7) :
    decode w = .instr (.lui (rdOf w) (fieldU w)) := by
  have htag : tagOf w = .lui := by rw [tagOf, h]; rfl
  rw [decode, htag]

/-! ### Effects (R140, R141) -/

theorem exec_lui (rd : Reg) (imm : BitVec 20) (s : State) : exec (.lui rd imm) s = s.writeBack rd (valueU imm) := rfl

theorem exec_auipc (rd : Reg) (imm : BitVec 20) (s : State) :
    exec (.auipc rd imm) s = s.writeBack rd (s.pc + valueU imm) := rfl

/-- Adding imm_U to a word, as numbers modulo 2^32 (decision D4). -/
theorem add_valueU (a : Word) (imm : BitVec 20) : a + valueU imm = BitVec.ofNat 32 (a.toNat + imm.toNat * 2 ^ 12) := by
  rw [valueU_eq, BitVec.ofNat_add, BitVec.ofNat_toNat, BitVec.setWidth_eq]

/-- Settles O27: the mask tests the opcode, and imm_U is the word with its low 12 bits cleared. -/
theorem luiWritesTheUpperImmediate : Obligations.LuiWritesTheUpperImmediate := by
  intro w s hmask
  have hvalue : valueU (fieldU w) = w &&& 0xFFFFF000#32 := immU_eq_and w
  refine ⟨decode_of_opcode_lui ((masked_op w _ rfl).1 hmask), ?_⟩
  rw [exec_lui, hvalue]
  exact s.writeBack_computes _ _

/-- Settles O28: both write back one value, which is the number the statement names. -/
theorem upperImmediateResults : Obligations.UpperImmediateResults := by
  intro s rd imm
  rw [exec_lui, exec_auipc, ← valueU_eq, ← add_valueU]
  exact ⟨s.writeBack_computes rd _, s.writeBack_computes rd _⟩

end Sys2Proof.Machine
end

section
/-! PROOFS, 41_jumps.md. JAL and JALR: the link, and the target as a number. -/

namespace Sys2Proof.Machine

/-! ### Effects (R145, R146) -/

theorem exec_jal (rd : Reg) (offset : BitVec 21) (s : State) :
    exec (.jal rd offset) s = s.link rd (s.pc + value21 offset) := rfl

theorem exec_jalr (rd rs1 : Reg) (imm : BitVec 12) (s : State) :
    exec (.jalr rd rs1 imm) s = s.link rd ((s.readReg rs1 + value12 imm) &&& 0xFFFFFFFE#32) := rfl

/-- JALR's mask clears bit 0 (R146): as a number, twice the half rounded down. -/
theorem and_clear_bit_zero (w : Word) : w &&& 0xFFFFFFFE#32 = BitVec.ofNat 32 (2 * (w.toNat / 2)) := by
  have hshift : w &&& 0xFFFFFFFE#32 = w >>> 1 <<< 1 := (BitVec.shiftLeft_ushiftRight (n := 1)).symm
  apply BitVec.eq_of_toNat_eq
  rw [hshift, BitVec.toNat_shiftLeft, BitVec.toNat_ushiftRight, BitVec.toNat_ofNat, Nat.shiftLeft_eq,
    Nat.shiftRight_eq_div_pow, Nat.mul_comm, Nat.pow_one]

/-- Settles O29: both are a link to a target computed in the state before it, which is the number the statement
names. -/
theorem jumpResults : Obligations.JumpResults := by
  intro s rd rs1 offset imm
  rw [exec_jal, exec_jalr, and_clear_bit_zero, value21_eq, value12_eq, add_ofInt, add_ofInt]
  exact ⟨s.link_jumps rd _, s.link_jumps rd _⟩

end Sys2Proof.Machine
end

section
/-! PROOFS, 42_branches.md. The six branches: the relations as numbers, and the target as a number. -/

namespace Sys2Proof.Machine

/-! ### Relations (R151 to R156) -/

theorem isEq_iff (a b : Word) : isEq a b = true ↔ a = b := beq_iff_eq

theorem isNe_iff (a b : Word) : isNe a b = true ↔ a ≠ b := bne_iff_ne

theorem isLt_iff (a b : Word) : isLt a b = true ↔ a.toInt < b.toInt := BitVec.slt_iff_toInt_lt

theorem isLtu_iff (a b : Word) : isLtu a b = true ↔ a.toNat < b.toNat := BitVec.ult_iff_toNat_lt

theorem isGe_iff (a b : Word) : isGe a b = true ↔ b.toInt ≤ a.toInt := by
  have hneg : isGe a b = !isLt a b := rfl
  rw [hneg, Bool.not_eq_true', ← Bool.not_eq_true, isLt_iff, Int.not_lt]

theorem isGeu_iff (a b : Word) : isGeu a b = true ↔ b.toNat ≤ a.toNat := by
  have hneg : isGeu a b = !isLtu a b := rfl
  rw [hneg, Bool.not_eq_true', ← Bool.not_eq_true, isLtu_iff, Nat.not_lt]

/-! ### Effects (R150) -/

section
variable (rs1 rs2 : Reg) (offset : BitVec 13) (s : State)

theorem exec_beq : exec (.beq rs1 rs2 offset) s =
    s.branch (isEq (s.readReg rs1) (s.readReg rs2)) (value13 offset) := rfl

theorem exec_bne : exec (.bne rs1 rs2 offset) s =
    s.branch (isNe (s.readReg rs1) (s.readReg rs2)) (value13 offset) := rfl

theorem exec_blt : exec (.blt rs1 rs2 offset) s =
    s.branch (isLt (s.readReg rs1) (s.readReg rs2)) (value13 offset) := rfl

theorem exec_bge : exec (.bge rs1 rs2 offset) s =
    s.branch (isGe (s.readReg rs1) (s.readReg rs2)) (value13 offset) := rfl

theorem exec_bltu : exec (.bltu rs1 rs2 offset) s =
    s.branch (isLtu (s.readReg rs1) (s.readReg rs2)) (value13 offset) := rfl

theorem exec_bgeu : exec (.bgeu rs1 rs2 offset) s =
    s.branch (isGeu (s.readReg rs1) (s.readReg rs2)) (value13 offset) := rfl

end

/-- A branch whose condition decides a proposition goes to pc plus the signed offset, modulo 2^32 (decision D4), when
the proposition holds. -/
theorem State.branch_goesTo_target_of_iff (s : State) {c : Bool} {p : Prop} [Decidable p] (h : c = true ↔ p)
    (offset : BitVec 13) :
    ∃ t, s.branch c (value13 offset) = .next t ∧
      s.GoesTo t (if p then BitVec.ofInt 32 (s.pc.toNat + offset.toInt) else s.pc + 4) := by
  have htarget : (if c then s.pc + value13 offset else s.pc + 4) =
      if p then BitVec.ofInt 32 (s.pc.toNat + offset.toInt) else s.pc + 4 := by
    simp only [h, value13_eq, add_ofInt]
  rw [← htarget]
  exact s.branch_goesTo c _

/-- Settles O30: each is a branch whose condition decides the relation the statement names. -/
theorem branchResults : Obligations.BranchResults := by
  intro s rs1 rs2 offset
  rw [exec_beq, exec_bne, exec_blt, exec_bge, exec_bltu, exec_bgeu]
  exact ⟨s.branch_goesTo_target_of_iff (isEq_iff _ _) offset, s.branch_goesTo_target_of_iff (isNe_iff _ _) offset,
    s.branch_goesTo_target_of_iff (isLt_iff _ _) offset, s.branch_goesTo_target_of_iff (isGe_iff _ _) offset,
    s.branch_goesTo_target_of_iff (isLtu_iff _ _) offset, s.branch_goesTo_target_of_iff (isGeu_iff _ _) offset⟩

end Sys2Proof.Machine
end

section
/-! PROOFS, 43_loads.md. The effective address as a number, the bytes a load reads as numbers, and what loads and
stores do in and out of bounds. -/

namespace Sys2Proof.Machine

/-! ### The effective address (R160) -/

/-- Settles O31: the address is a sum of words, and a word's number is its residue modulo 2^32 (decision D4). -/
theorem effectiveAddressWraps : Obligations.EffectiveAddressWraps := by
  intro s rs1 imm
  have haddress : s.effectiveAddress rs1 imm = BitVec.ofInt 32 ((s.readReg rs1).toNat + imm.toInt) := add_ofInt _ _
  rw [haddress, BitVec.toNat_ofInt, Int.toNat_of_nonneg (Int.emod_nonneg _ (by decide))]
  rfl

/-! ### The values read, as numbers (R161 to R165, decision D1) -/

theorem toNat_append_eq_add {n k : Nat} (x : BitVec n) (y : BitVec k) :
    (x ++ y).toNat = y.toNat + 2 ^ k * x.toNat := by
  rw [BitVec.toNat_append, ← Nat.shiftLeft_add_eq_or_of_lt y.isLt, Nat.shiftLeft_eq, Nat.mul_comm, Nat.add_comm]

section
variable (m : Memory) (a : Nat)

theorem Memory.extractLsb'_read_one : (m.read a .one).extractLsb' 0 8 = m.byte a := by
  rw [Memory.read, BitVec.extractLsb'_setWidth_of_le (by decide), BitVec.extractLsb'_eq_self]

theorem Memory.extractLsb'_read_two : (m.read a .two).extractLsb' 0 16 = m.byte (a + 1) ++ m.byte a := by
  rw [Memory.read, BitVec.extractLsb'_setWidth_of_le (by decide), BitVec.extractLsb'_eq_self]

theorem signByte_read : signByte (m.read a .one) = BitVec.ofInt 32 (m.byte a).toInt := by
  rw [signByte, Memory.extractLsb'_read_one, BitVec.signExtend]

theorem zeroByte_read : zeroByte (m.read a .one) = BitVec.ofNat 32 (m.byte a).toNat := by
  rw [zeroByte, Memory.extractLsb'_read_one, BitVec.ofNat_toNat]

/-- The sign of a halfword is that of its second byte. -/
theorem signHalf_read :
    signHalf (m.read a .two) = BitVec.ofInt 32 ((m.byte a).toNat + 2 ^ 8 * (m.byte (a + 1)).toInt) := by
  have hvalue : (m.byte (a + 1) ++ m.byte a).toInt = (m.byte a).toNat + 2 ^ 8 * (m.byte (a + 1)).toInt :=
    BitVec.toInt_append.trans (Int.add_comm _ _)
  rw [signHalf, Memory.extractLsb'_read_two, BitVec.signExtend, hvalue]

theorem zeroHalf_read :
    zeroHalf (m.read a .two) = BitVec.ofNat 32 ((m.byte a).toNat + 2 ^ 8 * (m.byte (a + 1)).toNat) := by
  rw [zeroHalf, Memory.extractLsb'_read_two, ← BitVec.ofNat_toNat, toNat_append_eq_add]

theorem wholeWord_read :
    wholeWord (m.read a .four) = BitVec.ofNat 32 ((m.byte a).toNat + 2 ^ 8 * (m.byte (a + 1)).toNat +
      2 ^ 16 * (m.byte (a + 2)).toNat + 2 ^ 24 * (m.byte (a + 3)).toNat) := by
  have hvalue : (m.read a .four).toNat = (m.byte a).toNat + 2 ^ 8 * (m.byte (a + 1)).toNat +
      2 ^ 16 * (m.byte (a + 2)).toNat + 2 ^ 24 * (m.byte (a + 3)).toNat := by
    simp only [Memory.read, toNat_append_eq_add]
    omega
  rw [← hvalue, BitVec.ofNat_toNat, BitVec.setWidth_eq, wholeWord]

end

/-! ### Loads in bounds (R160 to R165) -/

section
variable (rd rs1 : Reg) (imm : BitVec 12) (s : State)

theorem exec_lb : exec (.lb rd rs1 imm) s = s.load .one signByte rd (s.effectiveAddress rs1 imm) := rfl

theorem exec_lh : exec (.lh rd rs1 imm) s = s.load .two signHalf rd (s.effectiveAddress rs1 imm) := rfl

theorem exec_lw : exec (.lw rd rs1 imm) s = s.load .four wholeWord rd (s.effectiveAddress rs1 imm) := rfl

theorem exec_lbu : exec (.lbu rd rs1 imm) s = s.load .one zeroByte rd (s.effectiveAddress rs1 imm) := rfl

theorem exec_lhu : exec (.lhu rd rs1 imm) s = s.load .two zeroHalf rd (s.effectiveAddress rs1 imm) := rfl

end

/-- Settles O32: each load in bounds is `State.load_loads`, and its value is the number its bytes stand for. -/
theorem loadResults : Obligations.LoadResults := by
  intro s rd rs1 imm
  dsimp only
  rw [exec_lb, exec_lh, exec_lw, exec_lbu, exec_lhu, ← signByte_read, ← zeroByte_read, ← signHalf_read,
    ← zeroHalf_read, ← wholeWord_read]
  exact ⟨fun hin => ⟨State.load_loads hin signByte rd, State.load_loads hin zeroByte rd⟩,
    fun hin => ⟨State.load_loads hin signHalf rd, State.load_loads hin zeroHalf rd⟩,
    fun hin => State.load_loads hin wholeWord rd⟩

/-! ### Loads and stores out of bounds (60_exceptions.md R242, R244) -/

/-- Settles O34: out of bounds the instruction is `exec_out_of_bounds`, and a fault writes nothing. -/
theorem dataAccessOutOfBoundsFaults : Obligations.DataAccessOutOfBoundsFaults := by
  intro i d s hd hlt
  have hout : s.inBounds (s.effectiveAddress d.base d.disp) d.len = false := State.inBounds_eq_false_iff.2 hlt
  exact ⟨_, exec_out_of_bounds hd hout, s.takeAccessFault_faultsWith _, ⟨rfl, rfl⟩, rfl⟩

/-! ### What an instruction does to memory (R166, 20_memory.md R68) -/

section Memory
variable {s t : State}

theorem State.branch_mem {c : Bool} {offset : Word} (h : s.branch c offset = .next t) : t.mem = s.mem := by
  rw [State.branch_eq] at h
  cases h
  rfl

theorem State.load_mem {n : Len} {ext : Word → Word} {rd : Reg} {ea : Word} (h : s.load n ext rd ea = .next t) :
    t.mem = s.mem := by
  obtain ⟨-, rfl⟩ | ⟨-, rfl⟩ := State.load_next h <;> rfl

/-- A store writes its bytes, or faults and leaves memory. -/
theorem State.store_mem {n : Len} {ea v : Word} (h : s.store n ea v = .next t) :
    t.mem = s.mem ∨ t.mem = s.mem.write ea.toNat v n := by
  obtain ⟨-, rfl⟩ | ⟨-, rfl⟩ := State.store_next h
  · exact .inr rfl
  · exact .inl rfl

/-- An instruction leaves memory as it was, or is a store and writes at its effective address. -/
theorem exec_mem {i : Instr} (h : exec i s = .next t) :
    t.mem = s.mem ∨ ∃ d v, dataAccess i = some d ∧ d.dir = .write ∧
      t.mem = s.mem.write (s.effectiveAddress d.base d.disp).toNat v d.len := by
  cases i with
  | sb | sh | sw => exact (State.store_mem h).imp_right fun hwrite => ⟨_, _, rfl, rfl, hwrite⟩
  | lb | lh | lw | lbu | lhu => exact .inl (State.load_mem h)
  | beq | bne | blt | bge | bltu | bgeu => exact .inl (State.branch_mem h)
  | lui | auipc | jal | jalr => cases h; exact .inl rfl
  | addi | slti | sltiu | xori | ori | andi | slli | srli | srai => cases h; exact .inl rfl
  | add | sub | sll | slt | sltu | xor | srl | sra | or | and => cases h; exact .inl rfl

end Memory

/-- Settles O35: the byte that changed is one `exec_mem` wrote, and `Memory.byte_write` says which those are. -/
theorem onlyStoresChangeMemory : Obligations.OnlyStoresChangeMemory := by
  intro i s t a hexec hchanged
  obtain hsame | ⟨d, v, hd, hdir, hwrite⟩ := exec_mem hexec
  · rw [hsame] at hchanged
    exact absurd rfl hchanged
  · rw [hwrite, Memory.byte_write] at hchanged
    obtain ⟨hfirst, hlast⟩ := (ite_ne_right_iff.1 hchanged).1
    exact ⟨d, hd, hdir, hfirst, hlast⟩

end Sys2Proof.Machine
end

section
/-! PROOFS, 44_stores.md. What a store does in bounds, and what a load at the same effective address then reads. -/

namespace Sys2Proof.Machine

/-! ### Stores in bounds (R170 to R173) -/

section
variable (rs1 rs2 : Reg) (imm : BitVec 12) (s : State)

theorem exec_sb : exec (.sb rs1 rs2 imm) s = s.store .one (s.effectiveAddress rs1 imm) (s.readReg rs2) := rfl

theorem exec_sh : exec (.sh rs1 rs2 imm) s = s.store .two (s.effectiveAddress rs1 imm) (s.readReg rs2) := rfl

theorem exec_sw : exec (.sw rs1 rs2 imm) s = s.store .four (s.effectiveAddress rs1 imm) (s.readReg rs2) := rfl

end

/-- Settles O33: each store in bounds is `State.store_stores`. -/
theorem storeResults : Obligations.StoreResults := by
  intro s rs1 rs2 imm
  dsimp only
  rw [exec_sb, exec_sh, exec_sw]
  exact ⟨fun hin => State.store_stores hin _, fun hin => State.store_stores hin _, fun hin => State.store_stores hin _⟩

/-! ### A store, then a load (R174) -/

/-- The bytes written are the bytes read back. -/
theorem Memory.extractLsb'_read_write (m : Memory) (a : Nat) (v : Word) (n : Len) :
    ((m.write a v n).read a n).extractLsb' 0 (8 * n.bytes) = v.extractLsb' 0 (8 * n.bytes) := by
  refine BitVec.eq_of_getLsbD_eq fun i hi => ?_
  simp [Memory.getLsbD_read_write, hi]

/-- A completed store, then a load of the same length whose extension looks at the bytes loaded only: the load
completes, and its register takes the value stored, extended. -/
theorem State.store_then_load {s t : State} {n : Len} {ea v : Word} {ext : Word → Word} {rd : Reg}
    (hext : ∀ w w' : Word, w.extractLsb' 0 (8 * n.bytes) = w'.extractLsb' 0 (8 * n.bytes) → ext w = ext w')
    (hrd : rd ≠ 0#5) (hstore : s.store n ea v = .next t) (hrun : t.loopState = .running) :
    ∃ u, t.load n ext rd ea = .next u ∧ u.readReg rd = ext v := by
  obtain ⟨hin, ht⟩ | ⟨-, rfl⟩ := State.store_next hstore
  · have hmem : t.mem = s.mem.write ea.toNat v n := by rw [ht, State.advance_mem]
    have hbounds : t.inBounds ea n = true := by rw [ht]; exact hin
    refine ⟨_, State.load_in hbounds ext rd, ?_⟩
    rw [State.advance_readReg, State.readReg_writeReg, if_pos ⟨rfl, hrd⟩, hmem]
    exact hext _ _ (Memory.extractLsb'_read_write s.mem ea.toNat v n)
  · cases hrun

/-- Settles O36: `State.store_then_load`, with the extension of each load. -/
theorem storeThenLoad : Obligations.StoreThenLoad := by
  intro s t rs1 rs2 rd rb imm disp hrd hea
  rw [exec_sw, exec_sh, exec_sb, exec_lw, exec_lhu, exec_lh, exec_lbu, exec_lb, hea]
  refine ⟨State.store_then_load (fun w w' h => ?_) hrd, fun hstore hrun => ⟨?_, ?_⟩, fun hstore hrun => ⟨?_, ?_⟩⟩
  · exact (extract_all w).symm.trans (h.trans (extract_all w'))
  · exact State.store_then_load (ext := zeroHalf) (fun _ _ => congrArg (BitVec.setWidth 32)) hrd hstore hrun
  · exact State.store_then_load (ext := signHalf) (fun _ _ => congrArg (BitVec.signExtend 32)) hrd hstore hrun
  · exact State.store_then_load (ext := zeroByte) (fun _ _ => congrArg (BitVec.setWidth 32)) hrd hstore hrun
  · exact State.store_then_load (ext := signByte) (fun _ _ => congrArg (BitVec.signExtend 32)) hrd hstore hrun

end Sys2Proof.Machine
end

section
/-! PROOFS, 45_alu_immediate.md, with the register forms of 46_alu_register.md. The nineteen ALU instructions write back
one value each: that value as a number or bit by bit, and the words of the opcode table that are these instructions. -/

namespace Sys2Proof.Machine

/-! ### Effects (R180, R195) -/

section ImmediateForms
variable (rd rs1 : Reg) (imm : BitVec 12) (shamt : BitVec 5) (s : State)

theorem exec_addi : exec (.addi rd rs1 imm) s = s.writeBack rd (aluAdd (s.readReg rs1) (value12 imm)) := rfl

theorem exec_slti : exec (.slti rd rs1 imm) s = s.writeBack rd (aluSlt (s.readReg rs1) (value12 imm)) := rfl

theorem exec_sltiu : exec (.sltiu rd rs1 imm) s = s.writeBack rd (aluSltu (s.readReg rs1) (value12 imm)) := rfl

theorem exec_xori : exec (.xori rd rs1 imm) s = s.writeBack rd (aluXor (s.readReg rs1) (value12 imm)) := rfl

theorem exec_ori : exec (.ori rd rs1 imm) s = s.writeBack rd (aluOr (s.readReg rs1) (value12 imm)) := rfl

theorem exec_andi : exec (.andi rd rs1 imm) s = s.writeBack rd (aluAnd (s.readReg rs1) (value12 imm)) := rfl

theorem exec_slli : exec (.slli rd rs1 shamt) s = s.writeBack rd (aluSll (s.readReg rs1) shamt) := rfl

theorem exec_srli : exec (.srli rd rs1 shamt) s = s.writeBack rd (aluSrl (s.readReg rs1) shamt) := rfl

theorem exec_srai : exec (.srai rd rs1 shamt) s = s.writeBack rd (aluSra (s.readReg rs1) shamt) := rfl

end ImmediateForms

section RegisterForms
variable (rd rs1 rs2 : Reg) (s : State)

theorem exec_add : exec (.add rd rs1 rs2) s = s.writeBack rd (aluAdd (s.readReg rs1) (s.readReg rs2)) := rfl

theorem exec_sub : exec (.sub rd rs1 rs2) s = s.writeBack rd (aluSub (s.readReg rs1) (s.readReg rs2)) := rfl

theorem exec_slt : exec (.slt rd rs1 rs2) s = s.writeBack rd (aluSlt (s.readReg rs1) (s.readReg rs2)) := rfl

theorem exec_sltu : exec (.sltu rd rs1 rs2) s = s.writeBack rd (aluSltu (s.readReg rs1) (s.readReg rs2)) := rfl

theorem exec_xor : exec (.xor rd rs1 rs2) s = s.writeBack rd (aluXor (s.readReg rs1) (s.readReg rs2)) := rfl

theorem exec_or : exec (.or rd rs1 rs2) s = s.writeBack rd (aluOr (s.readReg rs1) (s.readReg rs2)) := rfl

theorem exec_and : exec (.and rd rs1 rs2) s = s.writeBack rd (aluAnd (s.readReg rs1) (s.readReg rs2)) := rfl

theorem exec_sll : exec (.sll rd rs1 rs2) s =
    s.writeBack rd (aluSll (s.readReg rs1) (shiftAmount (s.readReg rs2))) := rfl

theorem exec_srl : exec (.srl rd rs1 rs2) s =
    s.writeBack rd (aluSrl (s.readReg rs1) (shiftAmount (s.readReg rs2))) := rfl

theorem exec_sra : exec (.sra rd rs1 rs2) s =
    s.writeBack rd (aluSra (s.readReg rs1) (shiftAmount (s.readReg rs2))) := rfl

end RegisterForms

/-- `State.writeBack_computes` for a value known bit by bit. -/
theorem State.writeBack_computes_bits (s : State) (rd : Reg) {v : Word} {bit : Nat → Bool}
    (hbits : ∀ k < 32, v.getLsbD k = bit k) :
    ∃ t v', s.writeBack rd v = .next t ∧ s.Computes t rd v' ∧ ∀ k < 32, v'.getLsbD k = bit k := by
  obtain ⟨t, hnext, hcomputes⟩ := s.writeBack_computes rd v
  exact ⟨t, v, hnext, hcomputes, hbits⟩

/-! ### The operands (R105, R195) -/

theorem toInt_value12 (f : BitVec 12) : (value12 f).toInt = f.toInt := BitVec.toInt_signExtend_of_le (by decide)

/-- The sign-extended immediate read as an unsigned number (R183). -/
theorem toNat_value12 (f : BitVec 12) : ((value12 f).toNat : Int) = f.toInt % 2 ^ 32 := by
  rw [value12_eq, BitVec.toNat_ofInt, Int.toNat_of_nonneg (Int.emod_nonneg _ (by decide)), Nat.cast_pow, Nat.cast_ofNat]

theorem getLsbD_value12 (f : BitVec 12) {k : Nat} (hk : k < 32) : (value12 f).getLsbD k = f.getLsbD (min k 11) :=
  getLsbD_signExtend_min (by decide) f hk

theorem toNat_shiftAmount (b : Word) : (shiftAmount b).toNat = b.toNat % 32 := BitVec.extractLsb'_toNat 0 5 b

/-! ### Sums and differences (R181, R196, R197, decision D4) -/

theorem aluAdd_eq (a b : Word) : aluAdd a b = BitVec.ofNat 32 (a.toNat + b.toNat) := rfl

theorem aluAdd_value12 (a : Word) (f : BitVec 12) : aluAdd a (value12 f) = BitVec.ofInt 32 (a.toInt + f.toInt) :=
  add_ofInt_signed a f.toInt

theorem aluSub_eq (a b : Word) : aluSub a b = BitVec.ofInt 32 (a.toInt - b.toInt) := by
  apply BitVec.eq_of_toInt_eq
  rw [aluSub, BitVec.toInt_sub, BitVec.toInt_ofInt]

/-- Settles O38: each writes back a sum or a difference of words, which is the number the statement names. -/
theorem addSubtractResults : Obligations.AddSubtractResults := by
  intro s rd rs1 rs2 imm
  rw [exec_addi, exec_add, exec_sub, aluAdd_value12, aluAdd_eq, aluSub_eq]
  exact ⟨s.writeBack_computes rd _, s.writeBack_computes rd _, s.writeBack_computes rd _⟩

/-! ### Set less than (R182, R183, R199, R200, decision D14) -/

theorem aluSlt_eq (a b : Word) : aluSlt a b = if a.toInt < b.toInt then 1#32 else 0#32 :=
  if_congr (isLt_iff a b) rfl rfl

theorem aluSltu_eq (a b : Word) : aluSltu a b = if a.toNat < b.toNat then 1#32 else 0#32 :=
  if_congr (isLtu_iff a b) rfl rfl

theorem aluSlt_value12 (a : Word) (f : BitVec 12) :
    aluSlt a (value12 f) = if a.toInt < f.toInt then 1#32 else 0#32 := by
  rw [aluSlt_eq, toInt_value12]

theorem aluSltu_value12 (a : Word) (f : BitVec 12) :
    aluSltu a (value12 f) = if (a.toNat : Int) < f.toInt % 2 ^ 32 then 1#32 else 0#32 := by
  rw [aluSltu_eq, ← toNat_value12]
  exact if_congr Int.ofNat_lt.symm rfl rfl

/-- Settles O39: each writes back 1 or 0 by a relation of words, which is the relation of numbers the statement
names. -/
theorem setLessThanResults : Obligations.SetLessThanResults := by
  intro s rd rs1 rs2 imm
  rw [exec_slti, exec_sltiu, exec_slt, exec_sltu, aluSlt_value12, aluSltu_value12, aluSlt_eq, aluSltu_eq]
  exact ⟨s.writeBack_computes rd _, s.writeBack_computes rd _, s.writeBack_computes rd _, s.writeBack_computes rd _⟩

/-! ### Logic (R184 to R186, R201, R204, R205) -/

/-- Settles O40: each writes back the bitwise operation of two words, the immediate's bits above bit 11 being its
sign. -/
theorem logicResults : Obligations.LogicResults := by
  intro s rd rs1 rs2 imm a b
  rw [exec_xori, exec_ori, exec_andi, exec_xor, exec_or, exec_and]
  refine ⟨s.writeBack_computes_bits rd fun k hk => ?_, s.writeBack_computes_bits rd fun k hk => ?_,
    s.writeBack_computes_bits rd fun k hk => ?_, s.writeBack_computes_bits rd fun k _ => BitVec.getLsbD_xor,
    s.writeBack_computes_bits rd fun k _ => BitVec.getLsbD_or,
    s.writeBack_computes_bits rd fun k _ => BitVec.getLsbD_and⟩
  · rw [← getLsbD_value12 imm hk, aluXor, BitVec.getLsbD_xor]
  · rw [← getLsbD_value12 imm hk, aluOr, BitVec.getLsbD_or]
  · rw [← getLsbD_value12 imm hk, aluAnd, BitVec.getLsbD_and]

/-! ### Shifts (R187 to R189, R195, R198, R202, R203) -/

section Shifts
variable (a : Word) (n : BitVec 5)

theorem aluSll_eq : aluSll a n = BitVec.ofNat 32 (a.toNat * 2 ^ n.toNat) := by
  apply BitVec.eq_of_toNat_eq
  rw [aluSll, BitVec.toNat_shiftLeft, BitVec.toNat_ofNat, Nat.shiftLeft_eq]

theorem aluSrl_eq : aluSrl a n = BitVec.ofNat 32 (a.toNat / 2 ^ n.toNat) := by
  rw [← Nat.shiftRight_eq_div_pow, ← BitVec.toNat_ushiftRight, BitVec.ofNat_toNat, BitVec.setWidth_eq, aluSrl]

/-- Integer division by a positive number rounds down. -/
theorem aluSra_eq : aluSra a n = BitVec.ofInt 32 (a.toInt / 2 ^ n.toNat) := by
  rw [aluSra, BitVec.sshiftRight_eq, Int.shiftRight_eq_div_pow, Nat.cast_pow, Nat.cast_ofNat]

theorem getLsbD_aluSrl (k : Nat) :
    (aluSrl a n).getLsbD k = if k + n.toNat < 32 then a.getLsbD (k + n.toNat) else false := by
  rw [aluSrl, BitVec.getLsbD_ushiftRight, Nat.add_comm]
  split
  · rfl
  · exact BitVec.getLsbD_of_ge _ _ (by omega)

theorem getLsbD_aluSra {k : Nat} (hk : k < 32) :
    (aluSra a n).getLsbD k = if k + n.toNat < 32 then a.getLsbD (k + n.toNat) else a.getLsbD 31 := by
  rw [aluSra, BitVec.getLsbD_sshiftRight, decide_eq_false (by omega), Bool.not_false, Bool.true_and, Nat.add_comm,
    BitVec.msb_eq_getLsbD_last]

end Shifts

/-- Settles O41: each writes back a shifted word, which is the product or quotient the statement names; the register's
low 5 bits are its value modulo 32. -/
theorem shiftResults : Obligations.ShiftResults := by
  intro s rd rs1 rs2 shamt
  simp only [exec_slli, exec_srli, exec_srai, exec_sll, exec_srl, exec_sra, aluSll_eq, aluSrl_eq, aluSra_eq,
    ← toNat_shiftAmount]
  exact ⟨s.writeBack_computes rd _, s.writeBack_computes rd _, s.writeBack_computes rd _, s.writeBack_computes rd _,
    s.writeBack_computes rd _, s.writeBack_computes rd _⟩

/-! ### Words (R118, R119, R131) -/

/-- A word that passes the test of the tag's row has the tag. -/
theorem tagOf_of_mask {w mask pattern : Word} {tag : Tag} (h : w &&& mask = pattern)
    (hrow : ∃ row ∈ opcodeTable, row.tag = tag ∧ row.mask = mask ∧ row.pattern = pattern) : tagOf w = tag := by
  obtain ⟨row, hmem, rfl, rfl, rfl⟩ := hrow
  exact tagOf_of_selects hmem (beq_iff_eq.2 h)

/-- Settles O42: the mask fixes the tag, the tag the decoded instruction, and its effect is the bitwise operation of two
words. -/
theorem logicWordsRun : Obligations.LogicWordsRun := by
  intro w s a b
  rw [exec_xori, exec_ori, exec_andi, exec_xor, exec_or, exec_and]
  refine ⟨fun h => ⟨?_, s.writeBack_computes_bits _ fun k _ => BitVec.getLsbD_xor⟩,
    fun h => ⟨?_, s.writeBack_computes_bits _ fun k _ => BitVec.getLsbD_or⟩,
    fun h => ⟨?_, s.writeBack_computes_bits _ fun k _ => BitVec.getLsbD_and⟩,
    fun h => ⟨?_, s.writeBack_computes_bits _ fun k _ => BitVec.getLsbD_xor⟩,
    fun h => ⟨?_, s.writeBack_computes_bits _ fun k _ => BitVec.getLsbD_or⟩,
    fun h => ⟨?_, s.writeBack_computes_bits _ fun k _ => BitVec.getLsbD_and⟩,
    fun rd rs1 rs2 => ⟨funct7Of_encodeR .., funct7Of_encodeR .., funct7Of_encodeR ..⟩⟩
  · rw [decode, tagOf_of_mask (tag := .xori) h (by decide)]
  · rw [decode, tagOf_of_mask (tag := .ori) h (by decide)]
  · rw [decode, tagOf_of_mask (tag := .andi) h (by decide)]
  · rw [decode, tagOf_of_mask (tag := .xor) h (by decide)]
  · rw [decode, tagOf_of_mask (tag := .or) h (by decide)]
  · rw [decode, tagOf_of_mask (tag := .and) h (by decide)]

/-- Settles O43: the mask fixes the tag, the tag the decoded instruction, and its effect is a right shift, bit by
bit. -/
theorem rightShiftWordsRun : Obligations.RightShiftWordsRun := by
  intro w s a n
  rw [exec_srli, exec_srl, exec_sra]
  refine ⟨fun h => ⟨?_, s.writeBack_computes_bits _ fun k _ => getLsbD_aluSrl ..⟩,
    fun h => ⟨?_, s.writeBack_computes_bits _ fun k _ => getLsbD_aluSrl ..⟩,
    fun h => ⟨?_, s.writeBack_computes_bits _ fun k hk => getLsbD_aluSra _ _ hk⟩,
    fun rd rs1 rs2 => ⟨funct7Of_encodeR .., funct7Of_encodeR .., funct7Of_encodeR ..⟩⟩
  · rw [decode, tagOf_of_mask (tag := .srli) h (by decide)]
  · rw [decode, tagOf_of_mask (tag := .srl) h (by decide)]
  · rw [decode, tagOf_of_mask (tag := .sra) h (by decide)]

end Sys2Proof.Machine
end

section
/-! PROOFS, 47_system_unimplemented.md. The fault that a step takes on an unrecognized word. -/

namespace Sys2Proof.Machine

/-- A ready step whose fetch answers an unrecognized word takes the decoder's fault (R212). -/
theorem step_of_unrecognized {s : State} {w : Word} {why : Unrecognized} (hready : s.Ready) (hfetch : s.fetch.2 = .ok w)
    (hdecode : decode w = .unrecognized why) : step s = .next (s.fetch.1.takeFault (faultOfUnrecognized s.pc w)) := by
  have hpair : s.fetch = (s.fetch.1, .ok w) := Prod.ext rfl hfetch
  rw [step_of_ready hready, State.cycle, hpair]
  simp only [hdecode, State.fetch_fst_pc]

/-- Settles O47: the fetch answers the word at pc, the decoder's fault is the one its opcode gives, and taking it after
the fetch writes nothing. -/
theorem unrecognizedWordFaults : Obligations.UnrecognizedWordFaults := by
  rintro s w ⟨hready, hin, rfl⟩ ⟨why, hdecode⟩
  exact ⟨_, step_of_unrecognized hready (State.fetch_snd_in hin) hdecode, s.takeFault_fetch_faultsWith _⟩

end Sys2Proof.Machine
end

section
/-! PROOFS, 48_fetch_execute_loop.md. The step from each of its cases, what a terminal state does for ever, and two
states alike to a program (`State.ArchEq`) through a step and a run. -/

namespace Sys2Proof.Machine

/-! ### The step, case by case (R220, R228, R229) -/

section Step
variable {s : State}

theorem step_of_not_running (h : s.loopState ≠ .running) : step s = .next s := by
  unfold step State.loop
  split
  · next hrun => exact absurd hrun h
  · rfl
  · rfl

theorem step_of_stopRequested (hrun : s.loopState = .running) (hstop : s.stopRequested = true) :
    step s = .next s.halt := by
  simp [step, State.loop, hrun, hstop]

/-- A ready step whose fetch answers the word of an instruction runs it and ends the cycle. -/
theorem step_of_instr {w : Word} {i : Instr} {u : State} (hready : s.Ready) (hfetch : s.fetch.2 = .ok w)
    (hdecode : decode w = .instr i) (hexec : exec i s.fetch.1 = .next u) : step s = .next (u.endCycle i.tag) := by
  have hpair : s.fetch = (s.fetch.1, .ok w) := Prod.ext rfl hfetch
  rw [step_of_ready hready, State.cycle, hpair]
  simp only [hdecode, hexec, finishCycle]

theorem State.endCycle_eq_ite (u : State) (op : Tag) :
    u.endCycle op = if u.loopState = .running then u.completeCycle op else u := by
  obtain ⟨hrun, h⟩ | ⟨hnot, h⟩ := u.endCycle_cases op
  · rw [h, if_pos hrun]
  · rw [h, if_neg hnot]

/-- Every step answers: each phase of the cycle does. -/
theorem step_next (s : State) : ∃ t, step s = .next t := by
  by_cases hrun : s.loopState = .running
  · cases hstop : s.stopRequested with
    | true => exact ⟨_, step_of_stopRequested hrun hstop⟩
    | false =>
      cases hfetch : s.fetch.2 with
      | error f => exact ⟨_, step_of_fetch_error ⟨hrun, hstop⟩ hfetch⟩
      | ok w =>
        cases hdecode : decode w with
        | unrecognized why => exact ⟨_, step_of_unrecognized ⟨hrun, hstop⟩ hfetch hdecode⟩
        | instr i =>
          obtain ⟨u, hexec⟩ := exec_next i s.fetch.1
          exact ⟨_, step_of_instr ⟨hrun, hstop⟩ hfetch hdecode hexec⟩
  · exact ⟨s, step_of_not_running hrun⟩

end Step

/-- Settles O44: the fetch answers the word at pc, and the end of the cycle is `State.endCycle`. -/
theorem stepRunsTheDecodedInstruction : Obligations.StepRunsTheDecodedInstruction := by
  rintro s w i ⟨hready, hin, rfl⟩ hdecode
  have hfetch := State.fetch_snd_in hin
  obtain ⟨u, hexec⟩ := exec_next i s.fetch.1
  refine ⟨s.fetch.1, u, Prod.ext rfl hfetch, s.fetch_fst_regs, s.fetch_fst_pc, s.fetch_fst_mem,
    s.fetch_fst_loopState.trans hready.1, s.fetch_fst_cfg, hexec, ?_⟩
  rw [step_of_instr hready hfetch hdecode hexec, State.endCycle_eq_ite]
  rfl

/-! ### Terminal states (R226, R229) -/

theorem runSteps_of_not_running {s : State} (h : s.loopState ≠ .running) (k : Nat) : runSteps k s = .next s := by
  induction k with
  | zero => rfl
  | succ k ih => rw [runSteps_succ (step_of_not_running h), ih]

/-- Settles O48: the first step halts, and the halted state stays. -/
theorem stopRequestHalts : Obligations.StopRequestHalts := by
  intro s hrun hstop k
  rw [runSteps_succ (step_of_stopRequested hrun hstop)]
  exact runSteps_of_not_running (by simp) k

theorem State.requestStop_of_running {s : State} (h : s.loopState = .running) :
    s.requestStop = { s with stopRequested := true } := by
  simp [State.requestStop, h]

theorem State.requestStop_of_not_running {s : State} (h : s.loopState ≠ .running) : s.requestStop = s := by
  unfold State.requestStop
  split
  · next hrun => exact absurd hrun h
  · rfl
  · rfl

/-- The host reaches neither the loop state nor the fault record (10_state.md R42, R43). -/
theorem HostMove.apply_keeps_loop {m : HostMove} {s t : State} {a : HostAnswer} (h : m.apply s = .answered a t) :
    t.loopState = s.loopState ∧ t.faultInfo = s.faultInfo := by
  obtain rfl | rfl | ⟨ea, n, v, -, rfl⟩ | ⟨r, v, rfl⟩ | ⟨p, rfl⟩ | rfl := HostMove.apply_cases h
  · exact ⟨rfl, rfl⟩
  · by_cases hrun : s.loopState = .running
    · rw [State.requestStop_of_running hrun]
      exact ⟨rfl, rfl⟩
    · rw [State.requestStop_of_not_running hrun]
      exact ⟨rfl, rfl⟩
  · exact ⟨rfl, rfl⟩
  · exact ⟨rfl, rfl⟩
  · exact ⟨rfl, rfl⟩
  · exact ⟨rfl, rfl⟩

theorem HostMove.apply_debugRead (a : Word) (n : Len) (s : State) :
    (HostMove.debugRead a n.bytes).apply s = s.debugRead a n := by
  simp only [HostMove.apply, Len.ofNat?_bytes]

/-- Settles O49: a Faulted state steps to itself, the host keeps its loop state and record, and every read answers. -/
theorem faultedIsTerminal : Obligations.FaultedIsTerminal := by
  intro s hfaulted
  refine ⟨runSteps_of_not_running (by simp [hfaulted]), fun m a t happly => ?_,
    fun index hlt => HostMove.apply_readRegister hlt s, rfl, fun a n hin => ?_⟩
  · obtain ⟨hloop, hrecord⟩ := HostMove.apply_keeps_loop happly
    exact ⟨hloop.trans hfaulted, hrecord⟩
  · rw [HostMove.apply_debugRead, State.debugRead_in ((s.inBounds_iff a n).2 hin)]

/-! ### Two states alike to a program (R232) -/

theorem exec_stopRequested {i : Instr} {s t : State} (h : exec i s = .next t) : t.stopRequested = s.stopRequested := by
  obtain ⟨rd, v, p, rfl⟩ | ⟨rd, v, rfl⟩ | ⟨n, ea, v, -, rfl⟩ | ⟨n, ea, dir, -, rfl⟩ := exec_cases h <;> rfl

namespace State.ArchEq
variable {s s' t t' u : State}

theorem refl (s : State) : s.ArchEq s := ⟨rfl, rfl, rfl, rfl, rfl, rfl, rfl⟩

theorem symm (h : s.ArchEq t) : t.ArchEq s := by
  obtain ⟨hregs, hpc, hmem, hloop, hfault, hstop, hsize⟩ := h
  exact ⟨hregs.symm, hpc.symm, hmem.symm, hloop.symm, hfault.symm, hstop.symm, hsize.symm⟩

theorem trans (h : s.ArchEq t) (h' : t.ArchEq u) : s.ArchEq u := by
  obtain ⟨hregs, hpc, hmem, hloop, hfault, hstop, hsize⟩ := h
  obtain ⟨hregs', hpc', hmem', hloop', hfault', hstop', hsize'⟩ := h'
  exact ⟨hregs.trans hregs', hpc.trans hpc', hmem.trans hmem', hloop.trans hloop', hfault.trans hfault',
    hstop.trans hstop', hsize.trans hsize'⟩

/-! What does not show at all: the fetch path, time and telemetry, and the validity of a grant. -/

theorem fetch_fst (s : State) : s.fetch.1.ArchEq s := by
  obtain ⟨g, rs, time, h, -⟩ := s.fetch_fst_eq
  rw [h]
  exact refl s

theorem completeCycle (u : State) (op : Tag) : (u.completeCycle op).ArchEq u := refl u

theorem endCycle (u : State) (op : Tag) : (u.endCycle op).ArchEq u := by
  obtain ⟨-, h⟩ | ⟨-, h⟩ := u.endCycle_cases op <;> rw [h]
  · exact completeCycle u op
  · exact refl u

theorem invalidateGrant (s : State) : s.invalidateGrant.ArchEq s := refl s

/-! What both states do alike. -/

theorem ready (h : s.ArchEq s') (hready : s.Ready) : s'.Ready := by
  obtain ⟨-, -, -, hloop, -, hstop, -⟩ := h
  obtain ⟨hrun, hno⟩ := hready
  exact ⟨hloop ▸ hrun, hstop ▸ hno⟩

/-- The same fault taken after the two fetches. -/
theorem fetch_takeFault (h : s.ArchEq s') (f : Fault) : (s.fetch.1.takeFault f).ArchEq (s'.fetch.1.takeFault f) := by
  obtain ⟨hregs, hpc, hmem, -, -, hstop, hsize⟩ := (fetch_fst s).trans (h.trans (fetch_fst s').symm)
  exact ⟨hregs, hpc, hmem, rfl, rfl, hstop, hsize⟩

theorem fetch_snd (h : s.ArchEq s') : s'.fetch.2 = s.fetch.2 := by
  obtain ⟨-, hpc, hmem, -, -, -, hsize⟩ := h
  rw [State.fetch_snd, State.fetch_snd, hpc, hmem, hsize]

theorem readReg (h : s.ArchEq s') (r : Reg) : s.readReg r = s'.readReg r := by
  unfold State.readReg
  rw [h.1]

/-- An instruction reads nothing in which the two states differ (`State.Agree.exec`). -/
theorem exec {i : Instr} (h : s.ArchEq s') (ht : exec i s = .next t) (ht' : exec i s' = .next t') : t.ArchEq t' := by
  have hread := h.readReg
  obtain ⟨-, hpc, hmem, hloop, hfault, hstop, hsize⟩ := h
  obtain ⟨hend, hregs⟩ := State.Agree.exec ⟨hpc, hmem, hsize, hloop, hfault⟩ (fun r _ => hread r) ht ht'
  have hread' (r : Reg) : t.readReg r = t'.readReg r := by
    obtain heq | ⟨hkept, hkept'⟩ := hregs r
    · exact heq
    · rw [hkept, hkept', hread]
  have hstop' : t.stopRequested = t'.stopRequested := by rw [exec_stopRequested ht, exec_stopRequested ht', hstop]
  exact ⟨State.regs_ext hread', hend.pc, hend.mem, hend.loopState, hend.faultInfo, hstop', hend.memSize⟩

/-- A step of one state is matched by a step of the other, through the same phase of the cycle. -/
theorem step (h : s.ArchEq s') (hstep : step s = .next t) : ∃ t', step s' = .next t' ∧ t.ArchEq t' := by
  have ⟨hregs, hpc, hmem, hloop, hfault, hstop, hsize⟩ := h
  have hsnd := h.fetch_snd
  obtain ⟨hnot, rfl⟩ | ⟨hrun, hreq, rfl⟩ | ⟨hrun, hno, f, hfetch, rfl⟩ | ⟨hrun, hno, w, why, hfetch, hdecode, rfl⟩ |
    ⟨hrun, hno, w, i, u, hfetch, hdecode, hexec, hend⟩ := step_cases hstep
  · exact ⟨s', step_of_not_running (hloop ▸ hnot), h⟩
  · exact ⟨s'.halt, step_of_stopRequested (hloop ▸ hrun) (hstop ▸ hreq), hregs, hpc, hmem, rfl, hfault, hstop, hsize⟩
  · exact ⟨_, step_of_fetch_error (h.ready ⟨hrun, hno⟩) (hsnd.trans hfetch), h.fetch_takeFault f⟩
  · rw [hpc]
    exact ⟨_, step_of_unrecognized (h.ready ⟨hrun, hno⟩) (hsnd.trans hfetch) hdecode, h.fetch_takeFault _⟩
  · obtain ⟨u', hexec'⟩ := exec_next i s'.fetch.1
    have hu : u.ArchEq u' := ((fetch_fst s).trans (h.trans (fetch_fst s').symm)).exec hexec hexec'
    have ht : t.ArchEq u := by
      obtain ⟨-, rfl⟩ | ⟨-, rfl⟩ := hend
      · exact completeCycle u i.tag
      · exact refl _
    exact ⟨_, step_of_instr (h.ready ⟨hrun, hno⟩) (hsnd.trans hfetch) hdecode hexec',
      ht.trans (hu.trans (endCycle u' i.tag).symm)⟩

/-- Two runs of as many steps. -/
theorem runSteps (h : s.ArchEq s') (k : Nat) :
    ∃ t t', runSteps k s = .next t ∧ runSteps k s' = .next t' ∧ t.ArchEq t' := by
  induction k generalizing s s' with
  | zero => exact ⟨s, s', rfl, rfl, h⟩
  | succ k ih =>
    obtain ⟨t, hstep⟩ := step_next s
    obtain ⟨t', hstep', ht⟩ := h.step hstep
    rw [runSteps_succ hstep, runSteps_succ hstep']
    exact ih ht

end State.ArchEq

/-- Settles O55: `State.ArchEq` is kept by every pair of steps, so by every pair of runs. -/
theorem fetchPathAndTimeAreInvisible : Obligations.FetchPathAndTimeAreInvisible :=
  fun _ _ k h => h.runSteps k

end Sys2Proof.Machine
end

section
/-! PROOFS, 60_exceptions.md. How a ready cycle ends, the fault of the first phase to fault, and what the host's moves
do to a run. -/

namespace Sys2Proof.Machine

/-! ### The end of a cycle (R244, R247, R248) -/

/-- The fault of the coming cycle, by the phase that raises it: a later phase faults only where the earlier ones
answer. -/
inductive State.CycleFault (s : State) : Fault → Prop
  /-- The fetch (R242). -/
  | fetch (hout : s.cfg.memSize < s.pc.toNat + 4) : s.CycleFault (.accessFault s.pc s.pc .four .read)
  /-- The decoder (R241, R243). -/
  | decode {why : Unrecognized} (hin : s.pc.toNat + 4 ≤ s.cfg.memSize)
      (hdecode : Sys2Proof.decode (s.mem.read s.pc.toNat .four) = .unrecognized why) :
      s.CycleFault (faultOfUnrecognized s.pc (s.mem.read s.pc.toNat .four))
  /-- The data access of the instruction (R242). -/
  | access {i : Instr} {d : DataAccess} (hin : s.pc.toNat + 4 ≤ s.cfg.memSize)
      (hdecode : Sys2Proof.decode (s.mem.read s.pc.toNat .four) = .instr i) (hd : dataAccess i = some d)
      (hout : s.cfg.memSize < (s.effectiveAddress d.base d.disp).toNat + d.len.bytes) :
      s.CycleFault (.accessFault s.pc (s.effectiveAddress d.base d.disp) d.len d.dir)

theorem faultOfUnrecognized_atPc (pc inst : Word) : (faultOfUnrecognized pc inst).atPc = pc := by
  unfold faultOfUnrecognized
  split <;> rfl

theorem State.CycleFault.atPc {s : State} {f : Fault} (h : s.CycleFault f) : f.atPc = s.pc := by
  cases h with
  | fetch => rfl
  | decode => exact faultOfUnrecognized_atPc _ _
  | access => rfl

section Exec
variable {i : Instr} {s t : State}

theorem State.branch_completes {c : Bool} {offset : Word} (h : s.branch c offset = .next t) :
    t.loopState = s.loopState ∧ t.telemetry = s.telemetry := by
  rw [State.branch_eq] at h
  cases h
  exact ⟨rfl, rfl⟩

/-- An instruction completes, or it is a load or store whose access lies out of bounds. -/
theorem exec_completes_or_faults (h : exec i s = .next t) :
    (t.loopState = s.loopState ∧ t.telemetry = s.telemetry) ∨
      ∃ d, dataAccess i = some d ∧ s.inBounds (s.effectiveAddress d.base d.disp) d.len = false ∧
        t = s.chargeAccess.takeFault (.accessFault s.pc (s.effectiveAddress d.base d.disp) d.len d.dir) := by
  cases i with
  | lb | lh | lw | lbu | lhu =>
    obtain ⟨-, rfl⟩ | ⟨hout, rfl⟩ := State.load_next h
    · exact .inl ⟨rfl, rfl⟩
    · exact .inr ⟨_, rfl, hout, rfl⟩
  | sb | sh | sw =>
    obtain ⟨-, rfl⟩ | ⟨hout, rfl⟩ := State.store_next h
    · exact .inl ⟨rfl, rfl⟩
    · exact .inr ⟨_, rfl, hout, rfl⟩
  | beq | bne | blt | bge | bltu | bgeu => exact .inl (State.branch_completes h)
  | lui | auipc | jal | jalr => cases h; exact .inl ⟨rfl, rfl⟩
  | addi | slti | sltiu | xori | ori | andi | slli | srli | srai => cases h; exact .inl ⟨rfl, rfl⟩
  | add | sub | sll | slt | sltu | xor | srl | sra | or | and => cases h; exact .inl ⟨rfl, rfl⟩

end Exec

/-- A ready step completes its cycle, or takes the fault of its cycle on a state that differs from the one before in
the fetch path and sim_time only. -/
theorem step_cases_of_ready {s t : State} (hready : s.Ready) (hstep : step s = .next t) :
    (t.loopState = .running ∧ ∃ i : Instr, t.telemetry = s.telemetry ++ [.executed i.tag]) ∨
      ∃ f, s.CycleFault f ∧ ∃ g rs time,
        t = State.takeFault { s with grant := g, grantRequests := rs, simTime := time } f := by
  obtain ⟨hrun, hno⟩ := hready
  obtain ⟨g, rs, time, heq, -⟩ := s.fetch_fst_eq
  obtain ⟨hnot, -⟩ | ⟨-, hreq, -⟩ | ⟨-, -, f, hfetch, rfl⟩ | ⟨-, -, w, why, hfetch, hdecode, rfl⟩ |
    ⟨-, -, w, i, u, hfetch, hdecode, hexec, hend⟩ := step_cases hstep
  · exact absurd hrun hnot
  · exact absurd (hno.symm.trans hreq) Bool.false_ne_true
  · obtain ⟨hout, rfl⟩ := State.fetch_error hfetch
    rw [heq]
    exact .inr ⟨_, .fetch hout, g, rs, time, rfl⟩
  · obtain ⟨hin, rfl⟩ := State.fetch_ok hfetch
    rw [heq]
    exact .inr ⟨_, .decode hin hdecode, g, rs, time, rfl⟩
  · obtain ⟨hin, rfl⟩ := State.fetch_ok hfetch
    rw [heq] at hexec
    obtain ⟨hloop, hevents⟩ | ⟨d, hd, hout, rfl⟩ := exec_completes_or_faults hexec
    · have hu : u.loopState = .running := hloop.trans hrun
      obtain ⟨-, rfl⟩ | ⟨hnot, -⟩ := hend
      · exact .inl ⟨hu, i, congrArg (· ++ _) hevents⟩
      · exact absurd hu hnot
    · obtain ⟨hu, -⟩ | ⟨-, rfl⟩ := hend
      · cases hu
      · exact .inr ⟨_, .access hin hdecode hd (State.inBounds_eq_false_iff.1 hout), g, rs, _, rfl⟩

/-- Settles O51: the step takes the fault of its cycle, and taking a fault writes no register, pc or memory. -/
theorem faultsArePreciseAndInPhaseOrder : Obligations.FaultsArePreciseAndInPhaseOrder := by
  intro s t hrun hstep hfaulted
  have hno : s.stopRequested = false := by
    by_contra hreq
    rw [step_of_stopRequested hrun (Bool.not_eq_false _ ▸ hreq)] at hstep
    cases hstep
    cases hfaulted
  obtain ⟨hnot, -⟩ | ⟨f, hf, g, rs, time, rfl⟩ := step_cases_of_ready ⟨hrun, hno⟩ hstep
  · cases hnot.symm.trans hfaulted
  · refine ⟨f, ⟨fun _ => rfl, rfl, fun _ => rfl, rfl, rfl, rfl, rfl, rfl⟩, hf.atPc, rfl, rfl, ?_⟩
    cases hf with
    | fetch hout => rw [if_pos hout]
    | decode hin hdecode => rw [if_neg (not_lt.2 hin), hdecode]
    | access hin hdecode hd hout =>
      rw [if_neg (not_lt.2 hin), hdecode]
      exact ⟨_, hd, hout, rfl⟩

/-! ### The host (R255 to R257) -/

/-- A ready step does not halt. -/
theorem loopState_ne_halted_of_ready {s t : State} (hready : s.Ready) (hstep : step s = .next t) :
    t.loopState ≠ .halted := by
  obtain ⟨hrun, -⟩ | ⟨f, -, g, rs, time, rfl⟩ := step_cases_of_ready hready hstep
  · simp [hrun]
  · simp

/-- Settles O50: the request sets the latch of a running loop only, `step_of_stopRequested` halts it, and a step
without it does not halt. -/
theorem onlyAStopRequestHalts : Obligations.OnlyAStopRequestHalts := by
  refine ⟨fun s => ⟨s.requestStop, rfl, fun hrun => ?_, State.requestStop_of_not_running⟩, ?_,
    fun m a s t happly => (HostMove.apply_keeps_loop happly).1⟩
  · rw [State.requestStop_of_running hrun]
    exact ⟨rfl, _, step_of_stopRequested hrun rfl, rfl⟩
  · intro s t hstep hhalted
    by_cases hrun : s.loopState = .running
    · cases hstop : s.stopRequested with
      | true => exact .inr ⟨hrun, rfl⟩
      | false => exact absurd hhalted (loopState_ne_halted_of_ready ⟨hrun, hstop⟩ hstep)
    · rw [step_of_not_running hrun] at hstep
      cases hstep
      exact .inl hhalted

/-- A passive move is answered, and its effect does not show. -/
theorem HostMove.apply_of_passive {m : HostMove} (h : m.passive = true) (s : State) :
    ∃ a t, m.apply s = .answered a t ∧ t.ArchEq s := by
  cases m with
  | debugRead ea length =>
    obtain ⟨n, hn⟩ := Option.isSome_iff_exists.1 h
    have happly : (HostMove.debugRead ea length).apply s = s.debugRead ea n := by simp only [HostMove.apply, hn]
    rw [happly]
    obtain ⟨-, hread⟩ | ⟨-, hread⟩ := s.debugRead_cases ea n <;> exact ⟨_, s, hread, .refl s⟩
  | readRegister index => exact ⟨_, s, HostMove.apply_readRegister (of_decide_eq_true h) s, .refl s⟩
  | readPc => exact ⟨_, s, rfl, .refl s⟩
  | invalidateGrant => exact ⟨_, _, rfl, .invalidateGrant s⟩
  | requestStop | debugWrite | writeRegister | writePc => cases h

theorem runMoves_cons {m : Move} {s t : State} (h : m.apply s = .next t) (ms : List Move) :
    runMoves (m :: ms) s = runMoves ms t := by
  rw [runMoves, h]

/-- Settles O56, by induction on the moves: a cycle is a step of both runs, and a passive move leaves a state alike,
whose steps are alike (`State.ArchEq.runSteps`). -/
theorem passiveHostIsInvisible : Obligations.PassiveHostIsInvisible := by
  intro ms
  induction ms with
  | nil => exact fun s _ => ⟨s, s, rfl, rfl, .refl s⟩
  | cons m ms ih =>
    intro s hpassive
    obtain ⟨hm, hms⟩ := List.forall_mem_cons.1 hpassive
    cases m with
    | cycle =>
      obtain ⟨s', hstep⟩ := step_next s
      rw [runMoves_cons (m := .cycle) hstep, cyclesOf, runSteps_succ hstep]
      exact ih s' hms
    | host m =>
      obtain ⟨a, s', happly, hs'⟩ := HostMove.apply_of_passive hm s
      have hmove : (Move.host m).apply s = .next s' := by simp only [Move.apply, happly]
      obtain ⟨t, u', hrun, hsteps', htu'⟩ := ih s' hms
      obtain ⟨_, u, hsteps'', hsteps, hu⟩ := hs'.runSteps (cyclesOf ms)
      cases hsteps'.symm.trans hsteps''
      rw [runMoves_cons hmove]
      exact ⟨t, u, hrun, hsteps, htu'.trans hu⟩

end Sys2Proof.Machine
end

section
/-! PROOFS, 70_reset_and_hazards.md. The machine is never stuck. -/

namespace Sys2Proof.Machine

theorem step_cfg {s t : State} (hstep : step s = .next t) : t.cfg = s.cfg := by
  obtain ⟨-, rfl⟩ | ⟨-, -, rfl⟩ | ⟨-, -, f, -, rfl⟩ | ⟨-, -, w, why, -, -, rfl⟩ |
    ⟨-, -, w, i, u, -, -, hexec, hend⟩ := step_cases hstep
  · rfl
  · rfl
  · exact s.fetch_fst_cfg
  · exact s.fetch_fst_cfg
  · have hu : u.cfg = s.cfg := (exec_cfg hexec).trans s.fetch_fst_cfg
    obtain ⟨-, rfl⟩ | ⟨-, rfl⟩ := hend <;> exact hu

/-- Settles O52: every step answers, a ready one ends as `step_cases_of_ready` says, and every other leaves the state
or halts it (R286). -/
theorem everyStepAnswers : Obligations.EveryStepAnswers := by
  intro s
  obtain ⟨t, hstep⟩ := step_next s
  refine ⟨t, hstep, step_cfg hstep, fun hready => ?_, fun hnot => ?_⟩
  · obtain hcompleted | ⟨f, -, g, rs, time, rfl⟩ := step_cases_of_ready hready hstep
    · exact .inl hcompleted
    · exact .inr ⟨rfl, f, rfl, rfl⟩
  · obtain ⟨-, rfl⟩ | ⟨-, -, rfl⟩ | ⟨hrun, hno, -⟩ | ⟨hrun, hno, -⟩ | ⟨hrun, hno, -⟩ := step_cases hstep
    · exact ⟨rfl, rfl⟩
    · exact ⟨rfl, rfl⟩
    all_goals exact absurd ⟨hrun, hno⟩ hnot

end Sys2Proof.Machine
end
